-- ==== Sys2Proof/Word.lean ====
section
/-! DEFINITION. The values the spec gives a width to (spec/00_scope.md R6, R10; spec/20_memory.md R55). -/

namespace Sys2Proof

/-- One byte of a byte channel, or one 8-bit unsigned channel of a color (R6 `CHW`, R10). -/
abbrev Byte := BitVec 8

/-- One color cache slot: 24 stored bits (R6 `SLOTW`, R55). -/
abbrev Slot := BitVec 24

/-- A color (pixel): three 8-bit unsigned channels, no alpha (R10).
Two colors are equal when all three channels are. -/
structure Color where
  r : Byte
  g : Byte
  b : Byte
  deriving DecidableEq, Repr

/-- The color `(0,0,0)`, the value of `LAST` at reset and at `START` (R26, R38). -/
def black : Color := ⟨0#8, 0#8, 0#8⟩

end Sys2Proof
end

