-- ==== Sys2Proof/Config.lean ====
section
/-! DEFINITION. The implementation parameters of the block (spec/00_scope.md R6) and the room of its output channels. A machine carries one `Config` in its state and no step writes it. -/

namespace Sys2Proof

/-- `FF_POLICY` (R6, R81): what `DEC` does on the reserved first byte `0xFF`. -/
inductive FfPolicy where
  /-- `RUN63`, the default: a run byte with field 63. -/
  | run63
  /-- `FAULT`: `FormatError(RESERVED_OP)`. -/
  | fault
  deriving DecidableEq, Repr

/-- The parameters a model takes as arguments (R6), and how much each output channel holds before its
unit waits (R51, R240; assumption log 3). -/
structure Config where
  /-- `RUN_CAP`, the encoder's run threshold: legal `1..61`, default 60. -/
  runCap : Nat
  /-- `NPIX_W`, the width of `NPIX` and `PIX_IDX` in bits: default 64. -/
  npixW : Nat
  /-- `FF_POLICY`: default `RUN63`. -/
  ffPolicy : FfPolicy
  /-- Bytes `ENC.byte_out` holds at most; `none` is the unbounded channel of R50. -/
  byteOutCap : Option Nat
  /-- Pixels `DEC.pix_out` holds at most; `none` is a channel that never makes `DEC` wait. -/
  pixOutCap : Option Nat
  deriving DecidableEq, Repr

/-- The defaults of R6, with channels that never make a unit wait (R50). -/
def Config.default : Config :=
  { runCap := 60, npixW := 64, ffPolicy := .run63, byteOutCap := none, pixOutCap := none }

/-- The legal range of `RUN_CAP` (R6: `1..61`), the one parameter the spec restricts. -/
def Config.wf (c : Config) : Bool := decide (1 ≤ c.runCap ∧ c.runCap ≤ 61)

end Sys2Proof
end

