-- ==== Sys2Proof/Syntax.lean ====
section
/-! DEFINITION. The operations of the byte stream: one constructor per row of spec/opcode_table.json, with the operands of the assembler syntax (spec/30_encoding.md R84). -/

namespace Sys2Proof

/-- One operation of the stream. `ENC` emits them and `DEC` inverts them. Operands are the values the
syntax of R84 names, not the biased fields; which values are in range is `Instr.wf`. -/
inductive Instr where
  /-- `INDEX i`: the color in cache slot `i` (R72, R175). -/
  | index (i : Nat)
  /-- `DIFF dr, dg, db`: a small signed offset from `LAST` (R73, R177). -/
  | diff (dr dg db : Int)
  /-- `LUMA dg, drg, dbg`: a large offset, with `drg = dr - dg` and `dbg = db - dg` (R74, R178). -/
  | luma (dg drg dbg : Int)
  /-- `RUN n`: `LAST` repeated (R76, R78, R176). -/
  | run (n : Nat)
  /-- `RGB r, g, b`: a raw pixel (R75, R174). -/
  | rgb (r g b : Byte)
  /-- `RSV_FF`: the reserved byte `0xFF` (R81, R179). -/
  | rsvFF
  deriving DecidableEq, Repr

/-- The kind of an operation, which its first byte alone decides (R71). -/
inductive OpKind where
  | index | diff | luma | run | rgb | rsvFF
  deriving DecidableEq, Repr

/-- Why a byte list yields no operation. Every first byte has a kind (R80), so the one reason is that the
list ends before the operation does (R182). -/
inductive DecodeReject where
  /-- End of stream in the first byte, the `LUMA` second byte or an `RGB` payload byte. -/
  | truncated
  deriving DecidableEq, Repr

end Sys2Proof
end

