-- ==== Sys2Proof/WellFormed.lean ====
section
/-! DEFINITION. Which operand values an operation may carry: the ranges of the syntax table (spec/30_encoding.md R84), which are also the packers' operand ranges (spec/41_bitpack.md R120 to R125). -/

namespace Sys2Proof

/-- `lo ≤ v ≤ hi`: the form of every operand range in the spec ("`v` in `lo..hi`"). -/
def inRange (lo hi v : Int) : Bool := decide (lo ≤ v ∧ v ≤ hi)

/-- Every operand is inside its range. An operand outside it is an error and is never wrapped (R84, R125). -/
def Instr.wf : Instr → Bool
  | .index i => decide (i < 64)
  | .diff dr dg db => inRange (-2) 1 dr && inRange (-2) 1 dg && inRange (-2) 1 db
  | .luma dg drg dbg => inRange (-32) 31 dg && inRange (-8) 7 drg && inRange (-8) 7 dbg
  | .run n => decide (n ≤ 61)
  | .rgb _ _ _ => true
  | .rsvFF => true

end Sys2Proof
end

