-- ==== Sys2Proof/Decode.lean ====
section
/-! DEFINITION. The unpackers and the decoder, then the packers and the encoder (spec/30_encoding.md R70 to R85; spec/41_bitpack.md R120 to R132). All are pure: they read no state. -/

namespace Sys2Proof

/-! ### Unpackers -/

/-- `b[lo + n - 1 : lo]` as an unsigned number (R7). -/
def bitField (b : Byte) (lo n : Nat) : Nat := (b.extractLsb' lo n).toNat

/-- `CLASSIFY(b0)`: kind and length in bytes, the two full-byte values tested before the tag (R71, R126). -/
def classify (b0 : Byte) : OpKind × Nat :=
  if b0 = 0xFE#8 then (.rgb, 4)
  else if b0 = 0xFF#8 then (.rsvFF, 1)
  else
    match bitField b0 6 2 with
    | 0 => (.index, 1)
    | 1 => (.diff, 1)
    | 2 => (.luma, 2)
    | _ => (.run, 1)

/-- `UNPACK_INDEX(b0) = b0[5:0]` (R127). -/
def unpackIndex (b0 : Byte) : Nat := bitField b0 0 6

/-- `UNPACK_DIFF(b0)`: the three 2-bit fields less their bias 2 (R77, R128). -/
def unpackDiff (b0 : Byte) : Int × Int × Int :=
  ((bitField b0 4 2 : Int) - 2, (bitField b0 2 2 : Int) - 2, (bitField b0 0 2 : Int) - 2)

/-- `UNPACK_LUMA(b0, b1) = (dg, drg, dbg)`: biases 32, 8 and 8 (R77, R129). -/
def unpackLuma (b0 b1 : Byte) : Int × Int × Int :=
  ((bitField b0 0 6 : Int) - 32, (bitField b1 4 4 : Int) - 8, (bitField b1 0 4 : Int) - 8)

/-- `UNPACK_RGB(b1, b2, b3)`: the payload bytes verbatim, as `(r, g, b)` (R130). -/
def unpackRgb (b1 b2 b3 : Byte) : Byte × Byte × Byte := (b1, b2, b3)

/-- `UNPACK_RUN(b0) = b0[5:0]`, an unbiased count (R78, R131). -/
def unpackRun (b0 : Byte) : Nat := bitField b0 0 6

/-- One operation read from the front of a byte list, with the bytes after it. Every first byte has a kind,
and payload bytes are never classified (R71, R173); only a list that ends too early is rejected (R182). -/
def decode : List Byte → Except DecodeReject (Instr × List Byte)
  | [] => .error .truncated
  | b0 :: rest =>
    match (classify b0).1 with
    | .index => .ok (.index (unpackIndex b0), rest)
    | .diff => .ok (.diff (unpackDiff b0).1 (unpackDiff b0).2.1 (unpackDiff b0).2.2, rest)
    | .luma =>
      match rest with
      | b1 :: rest' =>
        .ok (.luma (unpackLuma b0 b1).1 (unpackLuma b0 b1).2.1 (unpackLuma b0 b1).2.2, rest')
      | [] => .error .truncated
    | .run => .ok (.run (unpackRun b0), rest)
    | .rgb =>
      match rest with
      | b1 :: b2 :: b3 :: rest' =>
        .ok (.rgb (unpackRgb b1 b2 b3).1 (unpackRgb b1 b2 b3).2.1 (unpackRgb b1 b2 b3).2.2, rest')
      | _ => .error .truncated
    | .rsvFF => .ok (.rsvFF, rest)

/-- The four bytes of a word numbered as spec/opcode_table.json numbers bits: the first byte is bits 7..0,
the second bits 15..8, and so on; bits from `nbits` up are zero. Four bytes is the longest operation (R83). -/
def tableBytes (nbits w : Nat) : List Byte :=
  [0, 1, 2, 3].map fun k => BitVec.ofNat 8 ((w % 2 ^ nbits) >>> (8 * k))

/-- The operation the decoder reads from a table word. -/
def decodeTableWord (nbits w : Nat) : Option Instr :=
  match decode (tableBytes nbits w) with
  | .ok (i, _) => some i
  | .error _ => none

/-! ### Packers -/

/-- A signed operand plus its bias, as a byte (R77). Inside the operand range the sum is a small
nonnegative number. -/
def biased (v bias : Int) : Byte := BitVec.ofInt 8 (v + bias)

/-- `PACK_INDEX(i) = [0x00 | i]` for `i` in `0..63` (R120); refused outside (R125). -/
def packIndex (i : Nat) : Option (List Byte) :=
  if i < 64 then some [0x00#8 ||| BitVec.ofNat 8 i] else none

/-- `PACK_DIFF(dr,dg,db) = [0x40 | (dr+2) << 4 | (dg+2) << 2 | (db+2)]`, each in `-2..1` (R121). -/
def packDiff (dr dg db : Int) : Option (List Byte) :=
  if inRange (-2) 1 dr && inRange (-2) 1 dg && inRange (-2) 1 db then
    some [0x40#8 ||| (biased dr 2 <<< 4) ||| (biased dg 2 <<< 2) ||| biased db 2]
  else none

/-- `PACK_LUMA(dg,drg,dbg) = [0x80 | (dg+32), (drg+8) << 4 | (dbg+8)]` (R122). -/
def packLuma (dg drg dbg : Int) : Option (List Byte) :=
  if inRange (-32) 31 dg && inRange (-8) 7 drg && inRange (-8) 7 dbg then
    some [0x80#8 ||| biased dg 32, (biased drg 8 <<< 4) ||| biased dbg 8]
  else none

/-- `PACK_RGB(c) = [0xFE, c.r, c.g, c.b]` (R123). -/
def packRgb (r g b : Byte) : List Byte := [0xFE#8, r, g, b]

/-- `PACK_RUN(n) = [0xC0 | n]` for `n` in `0..61` (R124). -/
def packRun (n : Nat) : Option (List Byte) :=
  if n ≤ 61 then some [0xC0#8 ||| BitVec.ofNat 8 n] else none

/-- The bytes of an operation, first byte first (R54, R84); `none` where an operand is out of range, which is
refused and never wrapped (R125). -/
def encode : Instr → Option (List Byte)
  | .index i => packIndex i
  | .diff dr dg db => packDiff dr dg db
  | .luma dg drg dbg => packLuma dg drg dbg
  | .run n => packRun n
  | .rgb r g b => some (packRgb r g b)
  | .rsvFF => some [0xFF#8]

/-- The bytes of a list of operations, in list order (R51, R70); refused if any operand is out of range. -/
def encodeAll : List Instr → Option (List Byte)
  | [] => some []
  | i :: is =>
    match encode i, encodeAll is with
    | some bs, some rest => some (bs ++ rest)
    | _, _ => none

/-- The kind of an operation. -/
def Instr.kind : Instr → OpKind
  | .index _ => .index
  | .diff _ _ _ => .diff
  | .luma _ _ _ => .luma
  | .run _ => .run
  | .rgb _ _ _ => .rgb
  | .rsvFF => .rsvFF

/-- The length of an operation in bytes (R80, R83). -/
def Instr.length : Instr → Nat
  | .index _ => 1
  | .diff _ _ _ => 1
  | .luma _ _ _ => 2
  | .run _ => 1
  | .rgb _ _ _ => 4
  | .rsvFF => 1

end Sys2Proof
end

