-- ==== Sys2Proof/Machine/State.lean ====
section
/-! DEFINITION. Everything the spec gives the machine to hold (spec/10_state.md R20 to R38; spec/20_memory.md R50 to R53), as plain data, and its value after hardware reset (R38, R230). -/

namespace Sys2Proof.Machine

/-- A unit's color cache: 64 slots of 24 bits, indexed `0..63` (R24). -/
abbrev Cache := Vector Slot 64

/-- A unit's state machine (R31). `ENC` never takes the value `error` (R207). -/
inductive UnitState where
  | idle | running | done | error
  deriving DecidableEq, Repr

/-- The 2-bit encoding of `STATE` (R36). -/
def UnitState.code : UnitState → BitVec 2
  | .idle => 0#2
  | .running => 1#2
  | .done => 2#2
  | .error => 3#2

/-- `DEC.ERR_CODE` (R32). Code 3 is reserved and never written, so it has no constructor. -/
inductive ErrCode where
  | none | truncated | reservedOp
  deriving DecidableEq, Repr

/-- The 2-bit encoding of `ERR_CODE` (R32). -/
def ErrCode.code : ErrCode → BitVec 2
  | .none => 0#2
  | .truncated => 1#2
  | .reservedOp => 2#2

/-- The state of the encoder unit, exactly the rows of R22. `NPIX` and `PIX_IDX` are `NPIX_W`-bit counts;
the width is a parameter, so they are numbers here and their bound is part of `State.Inv`. -/
structure EncUnit where
  /-- `ENC.CACHE[0..63]` (R24). -/
  cache : Cache
  /-- `ENC.LAST` (R26). -/
  last : Color
  /-- `ENC.RUN` (R27). -/
  run : BitVec 6
  /-- `ENC.NPIX` (R29). -/
  npix : Nat
  /-- `ENC.PIX_IDX` (R30). -/
  pixIdx : Nat
  /-- `ENC.STATE` (R31). -/
  state : UnitState
  /-- `ENC.OUT_LEN`, the model counter of bytes emitted in the pass (R33). -/
  outLen : Nat
  deriving DecidableEq, Repr

/-- The state of the decoder unit, exactly the rows of R23. -/
structure DecUnit where
  /-- `DEC.CACHE[0..63]` (R24). -/
  cache : Cache
  /-- `DEC.LAST` (R26). -/
  last : Color
  /-- `DEC.REM` (R28). -/
  rem : BitVec 6
  /-- `DEC.NPIX` (R29). -/
  npix : Nat
  /-- `DEC.PIX_IDX` (R30). -/
  pixIdx : Nat
  /-- `DEC.IN_POS`, the index of the next input byte (R33). -/
  inPos : Nat
  /-- `DEC.STATE` (R31). -/
  state : UnitState
  /-- `DEC.ERR_CODE` (R32). -/
  errCode : ErrCode
  deriving DecidableEq, Repr

/-- The encoder's ports (R35). What the host offers waits here until `ENC` takes it (R215); what `ENC` emits
waits here until the host takes it (R51). -/
structure EncPorts where
  /-- `ENC.start(npix)` offered and not yet taken. -/
  start : Option Nat
  /-- `ENC.pix_in`: colors offered and not yet taken, in stream order (R53). -/
  pixIn : List Color
  /-- `ENC.byte_out`: bytes emitted and not yet taken by the host, in order (R51). -/
  byteOut : List Byte
  deriving DecidableEq, Repr

/-- A `DEC.start(npix)` offered together with the finite input list `IN` of its pass, which is bound when the
start is taken (R52, R170). -/
structure DecStart where
  npix : Nat
  input : List Byte
  deriving DecidableEq, Repr

/-- The decoder's ports (R35). -/
structure DecPorts where
  /-- `DEC.start(npix)` offered and not yet taken. -/
  start : Option DecStart
  /-- `DEC.byte_in`: the list `IN` of the current pass, followed by end of stream (R52, R63). -/
  byteIn : List Byte
  /-- `DEC.pix_out`: colors delivered and not yet taken by the host, in order (R53). -/
  pixOut : List Color
  deriving DecidableEq, Repr

/-- Which unit the next step moves (assumption log 1: the units share nothing, so the order of their moves
cannot be observed). -/
inductive UnitId where
  | enc | dec
  deriving DecidableEq, Repr

/-- The whole block: its parameters, the `rst` event, the two units and their ports (R20, R35). -/
structure State where
  cfg : Config
  /-- The `rst` event is asserted and has not yet taken effect (R230). -/
  rst : Bool
  turn : UnitId
  enc : EncUnit
  encPorts : EncPorts
  dec : DecUnit
  decPorts : DecPorts
  deriving DecidableEq, Repr

/-- There is no fault: the one error of the block, `FormatError`, is a state the machine goes on from
(R204: the unit enters `ERROR`), and a unit without an enabled step waits (R213, R240). -/
inductive Fault where
  deriving DecidableEq, Repr

/-- The reasons for which the model gives no next state. -/
inductive Refusal where
  /-- Raised only by an arm of `exec` that has no meaning yet. Safe. -/
  | notModelled (mnemonic : String)
  /-- An operand outside the range of its syntax, which is refused and never wrapped (R84, R125).
  Raised by a meaning given an ill-formed term, which no decoding yields, and by an encoder step
  whose packer call is out of range, which no well-formed step makes (R152). Safe. -/
  | operandOutOfRange
  /-- A `START` whose count needs more than `NPIX_W` bits: the port cannot carry it (R35). Raised by the
  move that takes such a start; no host action of the model offers one. Safe. -/
  | startCountTooWide
  deriving DecidableEq, Repr

/-- Every slot is packed zero: what `CLEAR` leaves (R107). -/
def emptyCache : Cache := Vector.replicate 64 0#24

/-- `ENC` after hardware reset (R38). -/
def EncUnit.reset : EncUnit :=
  { cache := emptyCache, last := black, run := 0#6, npix := 0, pixIdx := 0, state := .idle,
    outLen := 0 }

/-- `DEC` after hardware reset (R38). -/
def DecUnit.reset : DecUnit :=
  { cache := emptyCache, last := black, rem := 0#6, npix := 0, pixIdx := 0, inPos := 0,
    state := .idle, errCode := .none }

/-- The machine right after hardware reset, with the default parameters: both units as R38 says, nothing on
any channel and nothing offered by the host (assumption log 4). -/
def State.reset : State :=
  { cfg := Config.default
    rst := false
    turn := .enc
    enc := EncUnit.reset
    encPorts := { start := none, pixIn := [], byteOut := [] }
    dec := DecUnit.reset
    decPorts := { start := none, byteIn := [], pixOut := [] } }

end Sys2Proof.Machine
end

