-- ==== Sys2Proof/Machine/Ops.lean ====
section
/-! DEFINITION. The shared operations: color cache (spec/40_color_cache.md), channels (spec/20_memory.md), pass starts and reset (spec/42_encoder.md R140, spec/43_decoder.md R170, spec/70_reset_and_hazards.md R230), pixel completion (R149, R180), and error entry and exit (spec/60_exceptions.md R203 to R205). -/

namespace Sys2Proof.Machine

/-! ### Color cache -/

/-- `HASH(c) = (3r + 5g + 7b) mod 64` (R100). -/
def hash (c : Color) : Nat := (3 * c.r.toNat + 5 * c.g.toNat + 7 * c.b.toNat) % 64

/-- `PACK(c) = r | (g << 8) | (b << 16)` (R55, R102). -/
def packColor (c : Color) : Slot :=
  c.r.setWidth 24 ||| (c.g.setWidth 24 <<< 8) ||| (c.b.setWidth 24 <<< 16)

/-- `UNPACK(v) = (v[7:0], v[15:8], v[23:16])` (R103). -/
def unpackColor (v : Slot) : Color :=
  { r := v.extractLsb' 0 8, g := v.extractLsb' 8 8, b := v.extractLsb' 16 8 }

/-- `CACHE[k]` (R9). The 64 indexes `0..63` are all there are (R59); no operation reads beyond them. -/
def cacheSlot (m : Cache) (k : Nat) : Slot := m[k]?.getD 0#24

/-- `UPDATE(c)`: `CACHE[HASH(c)] <- PACK(c)` (R105). -/
def cacheUpdate (m : Cache) (c : Color) : Cache := m.setIfInBounds (hash c) (packColor c)

/-- `CLEAR`: every slot to packed zero (R107). -/
def cacheClear : Cache := emptyCache

/-! ### Channels -/

/-- A channel that holds `used` transfers and at most `cap` has room for `n` more (R51, R240). -/
def hasRoom (cap : Option Nat) (used n : Nat) : Bool :=
  match cap with
  | none => true
  | some k => decide (used + n ≤ k)

/-- `ENC.byte_out` accepts `n` more bytes (R51). -/
def State.byteRoom (s : State) (n : Nat) : Bool :=
  hasRoom s.cfg.byteOutCap s.encPorts.byteOut.length n

/-- `DEC.pix_out` accepts one more pixel (R240). -/
def State.pixRoom (s : State) : Bool :=
  hasRoom s.cfg.pixOutCap s.decPorts.pixOut.length 1

/-- What `ReadByte()` has left to give: `IN` from `IN_POS` on (R52). -/
def State.unread (s : State) : List Byte := s.decPorts.byteIn.drop s.dec.inPos

/-- A count fits the `NPIX_W` bits of the `start` ports and of `NPIX` (R29, R35). -/
def countFits (c : Config) (n : Nat) : Bool := decide (n < 2 ^ c.npixW)

/-! ### Pass start and hardware reset -/

/-- `STATE` after `START(npix)` (R31). -/
def startState (npix : Nat) : UnitState := if npix = 0 then .done else .running

/-- `ENC_START(npix)`, accepted in any `STATE`; bytes of an abandoned pass stay on the channel (R140). -/
def encStart (npix : Nat) (s : State) : State :=
  { s with
    enc := { cache := cacheClear, last := black, run := 0#6, npix := npix, pixIdx := 0,
             state := startState npix, outLen := 0 }
    encPorts := { s.encPorts with start := none } }

/-- `DEC_START(npix)`, accepted in any `STATE`, binding `IN` (R52, R170). It is also the one exit from `ERROR`
other than hardware reset (R205). Pixels already delivered stand (R206). -/
def decStart (o : DecStart) (s : State) : State :=
  { s with
    dec := { cache := cacheClear, last := black, rem := 0#6, npix := o.npix, pixIdx := 0, inPos := 0,
             state := startState o.npix, errCode := .none }
    decPorts := { s.decPorts with start := none, byteIn := o.input } }

/-- Hardware reset: both units at once to their reset values (R230). The event is used up; the channels are
the host's and keep what they hold (assumption log 4). -/
def hardwareReset (s : State) : State :=
  { s with rst := false, enc := EncUnit.reset, dec := DecUnit.reset }

/-! ### Pixel completion -/

/-- `STATE` after a completed pixel step of a unit (R31, R150, R181). -/
def stateAfterPixel (pixIdx npix : Nat) (now : UnitState) : UnitState :=
  if pixIdx + 1 = npix then .done else now

/-- The end of every `DEC_PIXEL` step that raises no error: `EmitPixel(c)`, `UPDATE(c)`, `LAST <- c`,
`REM <- REM'`, `PIX_IDX <- PIX_IDX + 1`, and `DONE` at `NPIX` (R171, R180, R181), after the step consumed `len`
bytes (R33). -/
def completePixel (s : State) (len : Nat) (c : Color) (rem : BitVec 6) : State :=
  { s with
    dec := { s.dec with
      cache := cacheUpdate s.dec.cache c
      last := c
      rem := rem
      pixIdx := s.dec.pixIdx + 1
      inPos := s.dec.inPos + len
      state := stateAfterPixel s.dec.pixIdx s.dec.npix s.dec.state }
    decPorts := { s.decPorts with pixOut := s.decPorts.pixOut ++ [c] } }

/-- `REM'` after a run byte with field `n`: `(n = 0) ? 0 : n - 1` (R176). -/
def runRemainder (n : Nat) : BitVec 6 := BitVec.ofNat 6 (if n = 0 then 0 else n - 1)

/-! ### Error entry -/

/-- `DEC` raises `FormatError(code)`: `ERR_CODE <- code`, `STATE <- ERROR`, and nothing else is written, neither
register nor cache nor channel, and no pixel is delivered (R203, R204). -/
def raiseFormatError (code : ErrCode) (s : State) : State :=
  { s with dec := { s.dec with errCode := code, state := .error } }

end Sys2Proof.Machine
end

