-- ==== Sys2Proof/Machine/Operands.lean ====
section
/-! DEFINITION. The operand forms: 8-bit channel arithmetic (spec/00_scope.md R8), the encoder's deltas (spec/42_encoder.md R142) and the color each decoder operation computes (spec/43_decoder.md R174 to R178). -/

namespace Sys2Proof.Machine

/-- `u8(v) = v mod 256` (R8). -/
def u8 (v : Int) : Byte := BitVec.ofInt 8 v

/-- `sext_8(v)`: `v` if `v < 128`, else `v - 256` (R8). -/
def sext8 (v : Byte) : Int := if v.toNat < 128 then (v.toNat : Int) else (v.toNat : Int) - 256

/-- `s8(v) = sext_8(u8(v))` (R8). -/
def s8 (v : Int) : Int := sext8 (u8 v)

/-- A channel as the number it is. -/
def chan (v : Byte) : Int := (v.toNat : Int)

/-- `DELTAS(c, p)`: each channel difference modulo 256, read as two's complement (R142). -/
def deltas (c p : Color) : Int × Int × Int :=
  (s8 (chan c.r - chan p.r), s8 (chan c.g - chan p.g), s8 (chan c.b - chan p.b))

/-- `READ(i) = UNPACK(CACHE[i])`: the operand of `INDEX` (R106). -/
def readColor (m : Cache) (i : Nat) : Color := unpackColor (cacheSlot m i)

/-- The color of a `DIFF`: each delta added to `LAST`'s channel modulo 256 (R177). -/
def diffColor (last : Color) (dr dg db : Int) : Color :=
  { r := u8 (chan last.r + dr), g := u8 (chan last.g + dg), b := u8 (chan last.b + db) }

/-- The color of a `LUMA`: `dg` added to every channel, `drg` and `dbg` to red and blue besides (R178). -/
def lumaColor (last : Color) (dg drg dbg : Int) : Color :=
  { r := u8 (chan last.r + drg + dg), g := u8 (chan last.g + dg), b := u8 (chan last.b + dbg + dg) }

end Sys2Proof.Machine
end

