-- ==== Sys2Proof/Machine/Flags.lean ====
section
/-! DEFINITION. The block has no flags or condition codes (spec/10_state.md R34). What stands here are the internal signals of one step: `LOOKUP`'s hit, the encoder's run condition and its delta ranges, and the enables of the pixel steps. None is state. -/

namespace Sys2Proof.Machine

/-- `LOOKUP(c) = (hit, k)`, with `k = HASH(c)` and `hit` when slot `k` holds exactly `PACK(c)` (R104). -/
def lookup (m : Cache) (c : Color) : Bool × Nat := (cacheSlot m (hash c) == packColor c, hash c)

/-- Case 1's condition: `c = LAST` and `RUN < RUN_CAP` (R143). -/
def extendsRun (cfg : Config) (e : EncUnit) (c : Color) : Bool :=
  decide (c = e.last) && decide (e.run.toNat < cfg.runCap)

/-- Case 3b's condition: every delta in `-2..1` (R146). -/
def fitsDiff (dr dg db : Int) : Bool := inRange (-2) 1 dr && inRange (-2) 1 dg && inRange (-2) 1 db

/-- Case 3c's condition: `dg` in `-32..31`, `dr - dg` and `db - dg` in `-8..7`, on integers (R142, R147). -/
def fitsLuma (dr dg db : Int) : Bool :=
  inRange (-32) 31 dg && inRange (-8) 7 (dr - dg) && inRange (-8) 7 (db - dg)

/-- A `DEC` pixel step is enabled: `STATE = RUNNING` (R31, R171) and room on `pix_out` (R240). Its input is
always available, since `IN` is finite and ended (R240). -/
def State.decEnabled (s : State) : Bool := decide (s.dec.state = .running) && s.pixRoom

/-- The enabled `DEC` pixel step is one that reads an operation: no run is pending (R171, R173). -/
def State.decReads (s : State) : Bool := s.decEnabled && decide (s.dec.rem = 0#6)

end Sys2Proof.Machine
end

