-- ==== Sys2Proof/Machine/Decoder.lean ====
section
/-! DEFINITION. What `DEC` does with each operation it reads: one meaning per row of spec/opcode_table.json (spec/43_decoder.md R174 to R179). -/

namespace Sys2Proof.Machine

/-- The frame of every meaning. The operation is read only by a `DEC_PIXEL` step that is enabled and serves no
run; in any other state there is no such step and nothing changes (R31, R171, R172, R215). An operand out of
range is refused (R84, R125). -/
def whenRead (i : Instr) (s after : State) : Host.Outcome State Fault Refusal :=
  if i.wf then (if s.decReads then .next after else .next s) else .refused .operandOutOfRange

/-- `INDEX i`: `c <- READ(i)` from the cache before the step's `UPDATE` (R175). -/
def execIndex (i : Nat) (s : State) : Host.Outcome State Fault Refusal :=
  whenRead (.index i) s (completePixel s 1 (readColor s.dec.cache i) s.dec.rem)

/-- `DIFF dr, dg, db`: `LAST` with the deltas added modulo 256 (R177). -/
def execDiff (dr dg db : Int) (s : State) : Host.Outcome State Fault Refusal :=
  whenRead (.diff dr dg db) s (completePixel s 1 (diffColor s.dec.last dr dg db) s.dec.rem)

/-- `LUMA dg, drg, dbg` (R178). -/
def execLuma (dg drg dbg : Int) (s : State) : Host.Outcome State Fault Refusal :=
  whenRead (.luma dg drg dbg) s (completePixel s 2 (lumaColor s.dec.last dg drg dbg) s.dec.rem)

/-- `RUN n`: this pixel repeats `LAST`, and `REM` is loaded for the pixels still owed (R176). -/
def execRun (n : Nat) (s : State) : Host.Outcome State Fault Refusal :=
  whenRead (.run n) s (completePixel s 1 s.dec.last (runRemainder n))

/-- `RGB r, g, b`: the payload verbatim (R174). -/
def execRgb (r g b : Byte) (s : State) : Host.Outcome State Fault Refusal :=
  whenRead (.rgb r g b) s (completePixel s 4 { r := r, g := g, b := b } s.dec.rem)

/-- `RSV_FF`: under `RUN63` a run with field 63; under `FAULT` `FormatError(RESERVED_OP)` (R179, R202). -/
def execRsvFF (s : State) : Host.Outcome State Fault Refusal :=
  whenRead .rsvFF s
    (match s.cfg.ffPolicy with
     | .run63 => completePixel s 1 s.dec.last (runRemainder 63)
     | .fault => raiseFormatError .reservedOp s)

end Sys2Proof.Machine
end

