-- ==== Sys2Proof/Machine/Encoder.lean ====
section
/-! DEFINITION. The encoder unit: its choice of operations (spec/42_encoder.md R141 to R150) and its one move. -/

namespace Sys2Proof.Machine

/-- Cases 3a to 3d, in priority order: `INDEX` on a hit, then `DIFF`, then `LUMA`, else `RGB`
(R145 to R148). The cache is the one before the step's own `UPDATE` (R61). -/
def encChoose (e : EncUnit) (c : Color) : Instr :=
  let d := deltas c e.last
  if (lookup e.cache c).1 then .index (lookup e.cache c).2
  else if fitsDiff d.1 d.2.1 d.2.2 then .diff d.1 d.2.1 d.2.2
  else if fitsLuma d.1 d.2.1 d.2.2 then .luma d.2.1 (d.1 - d.2.1) (d.2.2 - d.2.1)
  else .rgb c.r c.g c.b

/-- A flush of a run count: the `RUN` operation of that count if it is positive (R144, R150). -/
def flushOps (run : BitVec 6) : List Instr := if run = 0#6 then [] else [.run run.toNat]

/-- The decision of one pixel: the operations to emit and `RUN'`. Case 1 extends the run and emits nothing
(R143); otherwise case 2 flushes and one of cases 3a to 3d follows in the same step (R144). -/
def encDecide (cfg : Config) (e : EncUnit) (c : Color) : List Instr × BitVec 6 :=
  if extendsRun cfg e c then ([], e.run + 1#6)
  else (flushOps e.run ++ [encChoose e c], 0#6)

/-- The operations an `ENC_PIXEL` step emits and the `RUN` it leaves: the decision, and in the step that
reaches `NPIX` the end-of-pass flush (R141, R150). -/
def encOps (cfg : Config) (e : EncUnit) (c : Color) : List Instr × BitVec 6 :=
  let d := encDecide cfg e c
  if e.pixIdx + 1 = e.npix then (d.1 ++ flushOps d.2, 0#6) else d

/-- The end of every `ENC_PIXEL` step: `UPDATE(c)`, `LAST <- c`, `PIX_IDX <- PIX_IDX + 1`, `DONE` at `NPIX`,
`RUN <- RUN'`, `EmitBytes(out)` (R141, R149, R150). The pixel leaves `pix_in`, where `rest` stays (R53). -/
def encComplete (s : State) (c : Color) (rest : List Color) (out : List Byte) (run : BitVec 6) : State :=
  { s with
    enc := { s.enc with
      cache := cacheUpdate s.enc.cache c
      last := c
      run := run
      pixIdx := s.enc.pixIdx + 1
      state := stateAfterPixel s.enc.pixIdx s.enc.npix s.enc.state
      outLen := s.enc.outLen + out.length }
    encPorts := { s.encPorts with pixIn := rest, byteOut := s.encPorts.byteOut ++ out } }

/-- `ENC_PIXEL(c)` with `c` the head of `pix_in`. It is enabled in `RUNNING`; otherwise the pixel is not taken
(R31, R215). The step is not taken until `byte_out` accepts all its bytes (R51). A packer call out of range
would be refused (R125). -/
def encPixel (c : Color) (rest : List Color) (s : State) : Host.Outcome State Fault Refusal :=
  if s.enc.state = .running then
    match encodeAll (encOps s.cfg s.enc c).1 with
    | some out =>
      if s.byteRoom out.length then .next (encComplete s c rest out (encOps s.cfg s.enc c).2)
      else .next s
    | none => .refused .operandOutOfRange
  else .next s

/-- One move of `ENC`: an offered `START` comes before a pixel (R210); a pixel is one step (R53); with nothing
to do the unit waits (R213). -/
def encMove (s : State) : Host.Outcome State Fault Refusal :=
  match s.encPorts.start with
  | some npix => if countFits s.cfg npix then .next (encStart npix s) else .refused .startCountTooWide
  | none =>
    match s.encPorts.pixIn with
    | [] => .next s
    | c :: rest => encPixel c rest s

end Sys2Proof.Machine
end

