-- ==== Sys2Proof/Machine/Pass.lean ====
section
/-! DEFINITION. The decoder's pixel step around `exec` (spec/43_decoder.md R171 to R173, R182), one move of `DEC`, the block's step (spec/60_exceptions.md R210), and runs of several moves of one unit. -/

namespace Sys2Proof.Machine

/-- A pending run serves one pixel and reads no byte: `REM <- REM - 1; c <- LAST` (R172). -/
def servePending (s : State) : State := completePixel s 0 s.dec.last (s.dec.rem - 1#6)

/-- `DEC_PIXEL()` in an enabled state: serve a pending run, or read one operation and invert it, or find end of
stream and raise `FormatError(TRUNCATED)` (R171, R182). -/
def decPixel (s : State) : Host.Outcome State Fault Refusal :=
  if s.dec.rem = 0#6 then
    match decode s.unread with
    | .ok (i, _) => exec i s
    | .error .truncated => .next (raiseFormatError .truncated s)
  else .next (servePending s)

/-- One move of `DEC`: an offered `START` comes before a pixel step (R210); outside `RUNNING`, or without room
on `pix_out`, the unit waits (R213, R215, R240). -/
def decMove (s : State) : Host.Outcome State Fault Refusal :=
  match s.decPorts.start with
  | some o => if countFits s.cfg o.npix then .next (decStart o s) else .refused .startCountTooWide
  | none => if s.decEnabled then decPixel s else .next s

/-- The other unit moves next (assumption log 1). -/
def passTurn (s : State) : State :=
  { s with turn := match s.turn with | .enc => .dec | .dec => .enc }

/-- One step of the block: hardware reset overrides everything (R210); otherwise the unit whose turn it is makes
one move and passes the turn. -/
def stepBlock (s : State) : Host.Outcome State Fault Refusal :=
  if s.rst then .next (hardwareReset s)
  else
    match s.turn with
    | .enc => encMove (passTurn s)
    | .dec => decMove (passTurn s)

/-- Up to `n` moves in a row by one unit, ending at the first fault or refusal. -/
def moves (move : State → Host.Outcome State Fault Refusal) :
    Nat → State → Host.Outcome State Fault Refusal
  | 0, s => .next s
  | n + 1, s =>
    match move s with
    | .next t => moves move n t
    | .fault r => .fault r
    | .refused r => .refused r

/-- A list with `bs` written over its elements from position `p` on, padded with zero bytes up to `p`. -/
def overwriteAt (p : Nat) (bs l : List Byte) : List Byte :=
  (l ++ List.replicate (p - l.length) 0#8).take p ++ bs ++ l.drop (p + bs.length)

/-- `s` made ready for `DEC` to read the operation in the table word as its very next step: `DEC` is `RUNNING`
in an unfinished pass with no run pending, no `START` or reset comes first, `pix_out` has room, it is `DEC`'s
turn, and the word's four bytes stand at `IN_POS` (assumption log 2). -/
def placeFetchWord (s : State) (nbits w : Nat) : State :=
  { s with
    rst := false
    turn := .dec
    dec := { s.dec with
      rem := 0#6
      npix := if s.dec.pixIdx < s.dec.npix then s.dec.npix else s.dec.pixIdx + 1
      state := .running
      errCode := .none }
    decPorts := {
      start := none
      byteIn := overwriteAt s.dec.inPos (tableBytes nbits w) s.decPorts.byteIn
      pixOut := if s.pixRoom then s.decPorts.pixOut else [] } }

end Sys2Proof.Machine
end

