-- ==== Sys2Proof/Machine/Ports.lean ====
section
/-! DEFINITION. What the host can do at the ports between two steps (spec/10_state.md R35, R36; spec/60_exceptions.md R211, R215). A host action changes ports only: the units change by their own steps. -/

namespace Sys2Proof.Machine

/-- The host's side of each port of R35 that carries something into the block or takes something out of it. -/
inductive HostAction where
  /-- Assert `rst`. -/
  | assertReset
  /-- Offer `ENC.start(npix)`; a start offered before and not yet taken is replaced. -/
  | offerEncStart (npix : Nat)
  /-- Offer the next pixel on `ENC.pix_in`. -/
  | offerPixel (c : Color)
  /-- Take one byte from `ENC.byte_out`. -/
  | takeByte
  /-- Offer `DEC.start(npix)` with the bytes of its pass and end of stream. -/
  | offerDecStart (npix : Nat) (input : List Byte)
  /-- Take one pixel from `DEC.pix_out`. -/
  | takePixel
  deriving DecidableEq, Repr

/-- A host action on the ports. A count that needs more than `NPIX_W` bits cannot be put on a `start` port, so
nothing is offered (R35). Taking from an empty channel takes nothing. -/
def hostAct (a : HostAction) (s : State) : State :=
  match a with
  | .assertReset => { s with rst := true }
  | .offerEncStart npix =>
    if countFits s.cfg npix then { s with encPorts := { s.encPorts with start := some npix } } else s
  | .offerPixel c => { s with encPorts := { s.encPorts with pixIn := s.encPorts.pixIn ++ [c] } }
  | .takeByte => { s with encPorts := { s.encPorts with byteOut := s.encPorts.byteOut.tail } }
  | .offerDecStart npix input =>
    if countFits s.cfg npix then
      { s with decPorts := { s.decPorts with start := some { npix := npix, input := input } } }
    else s
  | .takePixel => { s with decPorts := { s.decPorts with pixOut := s.decPorts.pixOut.tail } }

/-- `ENC.status`: `STATE` (R35, R36). Reading it changes nothing (R58). -/
def encStatus (s : State) : BitVec 2 := s.enc.state.code

/-- `DEC.status`: `STATE` and `ERR_CODE` (R35, R36). -/
def decStatus (s : State) : BitVec 2 × BitVec 2 := (s.dec.state.code, s.dec.errCode.code)

end Sys2Proof.Machine
end

