-- ==== Sys2Proof/Machine/Step.lean ====
section
/-! DEFINITION. The step of the block, and the placing of a table word where the next step reads it. Both only call Machine/Pass.lean. -/

namespace Sys2Proof.Machine

/-- One step of the block (R21, R210). -/
def step (s : State) : Host.Outcome State Fault Refusal := stepBlock s

/-- `s` with the operation of a table word where the next step reads it (assumption log 2). -/
def State.withFetchWord (s : State) (nbits w : Nat) : State := placeFetchWord s nbits w

end Sys2Proof.Machine
end

