-- ==== Sys2Proof/Safety.lean ====
section
/-! DEFINITION. What holds of every state a run can reach (`State.Inv`), what a safe step is, and the terms in which claims say what a pixel step of a unit does. The fields of the invariants are the ranges and step-boundary facts the spec states of the machine's registers. -/

namespace Sys2Proof.Machine

/-- Every slot `k` holds `0`, or the packed form of a color that hashes to `k` (R25). -/
def CacheOk (m : Cache) : Prop :=
  ∀ k, k < 64 → cacheSlot m k = 0#24 ∨ ∃ c, hash c = k ∧ cacheSlot m k = packColor c

/-- `CACHE[HASH(LAST)] = PACK(LAST)` (R110). -/
def LastCached (m : Cache) (last : Color) : Prop := cacheSlot m (hash last) = packColor last

/-- The encoder's registers are in their ranges (R22, R25, R27, R29 to R31, R110, R150, R153, R207). -/
structure EncUnit.Inv (cfg : Config) (e : EncUnit) : Prop where
  cacheOk : CacheOk e.cache
  lastCached : LastCached e.cache e.last
  runInRange : e.run.toNat ≤ cfg.runCap
  npixFits : e.npix < 2 ^ cfg.npixW
  pixIdxInRange : e.pixIdx ≤ e.npix
  runningUnfinished : e.state = .running → e.pixIdx < e.npix
  doneFinished : e.state = .done → e.pixIdx = e.npix
  noRunOutsidePass : e.state ≠ .running → e.run = 0#6
  neverError : e.state ≠ .error
  outBounded : e.outLen + e.run.toNat ≤ 4 * e.pixIdx

/-- The decoder's registers are in their ranges (R23, R25, R28 to R33, R110, R204); `input` is the list `IN`. -/
structure DecUnit.Inv (cfg : Config) (input : List Byte) (d : DecUnit) : Prop where
  cacheOk : CacheOk d.cache
  lastCached : LastCached d.cache d.last
  remInRange : d.rem.toNat ≤ 62
  npixFits : d.npix < 2 ^ cfg.npixW
  pixIdxInRange : d.pixIdx ≤ d.npix
  runningUnfinished : d.state = .running → d.pixIdx < d.npix
  doneFinished : d.state = .done → d.pixIdx = d.npix
  errorUnfinished : d.state = .error → d.pixIdx < d.npix
  errorHasCause : d.state = .error ↔ d.errCode ≠ .none
  inPosInRange : d.inPos ≤ input.length

/-- The invariant of the block: legal parameters, both units in range, and offered counts that the `start`
ports can carry (R6, R35). -/
structure State.Inv (s : State) : Prop where
  cfgOk : s.cfg.wf = true
  enc : s.enc.Inv s.cfg
  dec : s.dec.Inv s.cfg s.decPorts.byteIn
  encStartFits : ∀ n, s.encPorts.start = some n → countFits s.cfg n = true
  decStartFits : ∀ o, s.decPorts.start = some o → countFits s.cfg o.npix = true

/-- A step that gives a next state, neither a fault nor a refusal. -/
def SafeStep (s : State) : Prop := ∃ t, step s = .next t

/-! ### What a pixel step does, field by field -/

/-- `DEC` can read an operation: `RUNNING`, no run pending, room for a pixel (R171, R173, R240). -/
structure DecReady (s : State) : Prop where
  running : s.dec.state = .running
  noRun : s.dec.rem = 0#6
  room : s.pixRoom = true

/-- Nothing outside `DEC`'s registers and its channels differs, and neither does `DEC`'s input. -/
structure DecStepRest (s t : State) : Prop where
  cfg : t.cfg = s.cfg
  rst : t.rst = s.rst
  turn : t.turn = s.turn
  enc : t.enc = s.enc
  encPorts : t.encPorts = s.encPorts
  npix : t.dec.npix = s.dec.npix
  start : t.decPorts.start = s.decPorts.start
  byteIn : t.decPorts.byteIn = s.decPorts.byteIn

/-- A completed `DEC_PIXEL` step from `s` to `t`: it consumed `len` bytes, delivered the color `c` and left
`rem` in `REM`; `c` is in its slot and every other slot is as it was (R171, R180, R181). -/
structure DecPixelDone (s t : State) (len : Nat) (c : Color) (rem : Nat) : Prop where
  pixel : t.decPorts.pixOut = s.decPorts.pixOut ++ [c]
  last : t.dec.last = c
  slot : cacheSlot t.dec.cache (hash c) = packColor c
  otherSlots : ∀ k, k ≠ hash c → cacheSlot t.dec.cache k = cacheSlot s.dec.cache k
  rem : t.dec.rem.toNat = rem
  pixIdx : t.dec.pixIdx = s.dec.pixIdx + 1
  inPos : t.dec.inPos = s.dec.inPos + len
  state : t.dec.state = if s.dec.pixIdx + 1 = s.dec.npix then .done else .running
  errCode : t.dec.errCode = s.dec.errCode
  rest : DecStepRest s t

/-- A `DEC_PIXEL` step that raised `FormatError(code)`: only `STATE` and `ERR_CODE` are written, and no pixel is
delivered (R203, R204). -/
structure DecErrorEntered (s t : State) (code : ErrCode) : Prop where
  state : t.dec.state = .error
  errCode : t.dec.errCode = code
  cache : t.dec.cache = s.dec.cache
  last : t.dec.last = s.dec.last
  rem : t.dec.rem = s.dec.rem
  pixIdx : t.dec.pixIdx = s.dec.pixIdx
  inPos : t.dec.inPos = s.dec.inPos
  pixel : t.decPorts.pixOut = s.decPorts.pixOut
  rest : DecStepRest s t

/-- `ENC` can take the pixel `c` off `pix_in`, where `rest` follows it: `RUNNING`, no `START` before it, and room
for the most a step emits (R51, R141, R153, R210). -/
structure EncReady (s : State) (c : Color) (rest : List Color) : Prop where
  running : s.enc.state = .running
  noStart : s.encPorts.start = none
  offered : s.encPorts.pixIn = c :: rest
  room : s.byteRoom 5 = true

/-- A completed `ENC_PIXEL(c)` step from `s` to `t`: it emitted the bytes `out` and left `run` in `RUN`; the
pixel is off `pix_in`, `c` is in its slot and every other slot is as it was; nothing of `DEC` differs
(R141, R149, R150). -/
structure EncPixelDone (s t : State) (c : Color) (rest : List Color) (out : List Byte) (run : Nat) :
    Prop where
  bytes : t.encPorts.byteOut = s.encPorts.byteOut ++ out
  outLen : t.enc.outLen = s.enc.outLen + out.length
  pixIn : t.encPorts.pixIn = rest
  last : t.enc.last = c
  slot : cacheSlot t.enc.cache (hash c) = packColor c
  otherSlots : ∀ k, k ≠ hash c → cacheSlot t.enc.cache k = cacheSlot s.enc.cache k
  run : t.enc.run.toNat = run
  pixIdx : t.enc.pixIdx = s.enc.pixIdx + 1
  state : t.enc.state = if s.enc.pixIdx + 1 = s.enc.npix then .done else .running
  npix : t.enc.npix = s.enc.npix
  start : t.encPorts.start = s.encPorts.start
  cfg : t.cfg = s.cfg
  rst : t.rst = s.rst
  turn : t.turn = s.turn
  dec : t.dec = s.dec
  decPorts : t.decPorts = s.decPorts

/-- A signed channel difference of `c` from `p` modulo 256 (R142): `d` is one of the integers that differ from
`c - p` by a multiple of 256. In `-128..127` there is exactly one. -/
def IsDelta (c p : Byte) (d : Int) : Prop := ((c.toNat : Int) - (p.toNat : Int) - d) % 256 = 0

/-- Deltas that `DIFF` can carry (R73, R146). -/
def DiffDeltas (c p : Color) (dr dg db : Int) : Prop :=
  IsDelta c.r p.r dr ∧ IsDelta c.g p.g dg ∧ IsDelta c.b p.b db ∧
  (-2 ≤ dr ∧ dr ≤ 1) ∧ (-2 ≤ dg ∧ dg ≤ 1) ∧ (-2 ≤ db ∧ db ≤ 1)

/-- Deltas that `LUMA` can carry (R74, R147). -/
def LumaDeltas (c p : Color) (dr dg db : Int) : Prop :=
  IsDelta c.r p.r dr ∧ IsDelta c.g p.g dg ∧ IsDelta c.b p.b db ∧
  (-32 ≤ dg ∧ dg ≤ 31) ∧ (-8 ≤ dr - dg ∧ dr - dg ≤ 7) ∧ (-8 ≤ db - dg ∧ db - dg ≤ 7)

/-- Case 1 does not apply to the pixel `c` (R143). -/
def NotAbsorbed (s : State) (c : Color) : Prop :=
  ¬ (c = s.enc.last ∧ s.enc.run.toNat < s.cfg.runCap)

/-- Slot `HASH(c)` does not hold `c`: `LOOKUP(c)` misses (R104). -/
def Misses (m : Cache) (c : Color) : Prop := cacheSlot m (hash c) ≠ packColor c

/-- The flush of a run count as a byte list: nothing for 0, else the run byte `0xC0 + run` (R144). -/
def flushBytes (run : Nat) : List Byte := if run = 0 then [] else [BitVec.ofNat 8 (0xC0 + run)]

end Sys2Proof.Machine
end

