-- ==== Sys2Proof/Certificates/Slice0/Obligations.lean ====
section
/-! DEFINITION. The statements for the provers. Each docstring names the rules of the spec it formalises; a clause that rests on a choice of the model says so and names the assumption log. -/

open Sys2Proof Sys2Proof.Machine

/-! ### Operations of the stream, as `DEC` performs them -/

/-- R175: the byte of an `INDEX` names slot `b0[5:0]`; the step yields the color that slot holds before the
step's own `UPDATE`, consumes one byte, and raises no error. A cleared slot yields black. -/
def Obligations.IndexYieldsSlotColor : Prop :=
  (∀ (b0 : Byte) (rest : List Byte), b0.toNat < 64 → decode (b0 :: rest) = .ok (.index b0.toNat, rest)) ∧
  ∀ (s : State) (i : Nat), DecReady s → i < 64 →
    ∃ (t : State) (c : Color), exec (.index i) s = .next t ∧ packColor c = cacheSlot s.dec.cache i ∧
      (cacheSlot s.dec.cache i = 0#24 → c = black) ∧ DecPixelDone s t 1 c 0

/-- R177: the three 2-bit fields less 2 are added to the channels of `LAST` modulo 256; one byte is consumed and
no error is raised. -/
def Obligations.DiffAddsDeltasModulo256 : Prop :=
  (∀ (b0 : Byte) (rest : List Byte), 64 ≤ b0.toNat → b0.toNat < 128 →
    decode (b0 :: rest) = .ok (.diff (((b0.toNat / 16 % 4 : Nat) : Int) - 2)
      (((b0.toNat / 4 % 4 : Nat) : Int) - 2) (((b0.toNat % 4 : Nat) : Int) - 2), rest)) ∧
  ∀ (s : State) (dr dg db : Int), DecReady s → (-2 ≤ dr ∧ dr ≤ 1) → (-2 ≤ dg ∧ dg ≤ 1) →
    (-2 ≤ db ∧ db ≤ 1) →
    ∃ (t : State) (c : Color), exec (.diff dr dg db) s = .next t ∧
      (c.r.toNat : Int) = (s.dec.last.r.toNat + dr) % 256 ∧
      (c.g.toNat : Int) = (s.dec.last.g.toNat + dg) % 256 ∧
      (c.b.toNat : Int) = (s.dec.last.b.toNat + db) % 256 ∧ DecPixelDone s t 1 c 0

/-- R178: `dg` is the low six bits less 32, and the nibbles of the second byte less 8 are `drg` and `dbg`; `dg`
is added to every channel of `LAST`, `drg` and `dbg` besides to red and blue, modulo 256; two bytes are
consumed. Without a second byte the step raises `FormatError(TRUNCATED)`. -/
def Obligations.LumaAddsGreenAndOffsetsModulo256 : Prop :=
  (∀ (b0 b1 : Byte) (rest : List Byte), 128 ≤ b0.toNat → b0.toNat < 192 →
    decode (b0 :: b1 :: rest) = .ok (.luma (((b0.toNat % 64 : Nat) : Int) - 32)
      (((b1.toNat / 16 : Nat) : Int) - 8) (((b1.toNat % 16 : Nat) : Int) - 8), rest)) ∧
  (∀ (s : State) (dg drg dbg : Int), DecReady s → (-32 ≤ dg ∧ dg ≤ 31) → (-8 ≤ drg ∧ drg ≤ 7) →
    (-8 ≤ dbg ∧ dbg ≤ 7) →
    ∃ (t : State) (c : Color), exec (.luma dg drg dbg) s = .next t ∧
      (c.r.toNat : Int) = (s.dec.last.r.toNat + drg + dg) % 256 ∧
      (c.g.toNat : Int) = (s.dec.last.g.toNat + dg) % 256 ∧
      (c.b.toNat : Int) = (s.dec.last.b.toNat + dbg + dg) % 256 ∧ DecPixelDone s t 2 c 0) ∧
  ∀ (s : State) (b0 : Byte), DecReady s → s.decPorts.start = none → 128 ≤ b0.toNat → b0.toNat < 192 →
    s.unread = [b0] → ∃ t, decMove s = .next t ∧ DecErrorEntered s t .truncated

/-- R174: the three bytes after `0xFE` are the pixel, verbatim; four bytes are consumed. With fewer than three
bytes after `0xFE` the step raises `FormatError(TRUNCATED)` and writes nothing else. -/
def Obligations.RgbYieldsPayloadVerbatim : Prop :=
  (∀ (b1 b2 b3 : Byte) (rest : List Byte),
    decode (0xFE#8 :: b1 :: b2 :: b3 :: rest) = .ok (.rgb b1 b2 b3, rest)) ∧
  (∀ (s : State) (r g b : Byte), DecReady s →
    ∃ t, exec (.rgb r g b) s = .next t ∧ DecPixelDone s t 4 { r := r, g := g, b := b } 0) ∧
  ∀ (s : State) (tail : List Byte), DecReady s → s.decPorts.start = none →
    s.unread = 0xFE#8 :: tail → tail.length < 3 →
    ∃ t, decMove s = .next t ∧ DecErrorEntered s t .truncated

/-- R176: a run byte with field `n` repeats `LAST` for this pixel and loads `REM` with `n - 1`, or with 0 when
`n = 0`; one byte is consumed and no error is raised. -/
def Obligations.RunRepeatsLastAndLoadsRemainder : Prop :=
  (∀ (b0 : Byte) (rest : List Byte), 192 ≤ b0.toNat → b0.toNat < 254 →
    decode (b0 :: rest) = .ok (.run (b0.toNat - 192), rest)) ∧
  ∀ (s : State) (n : Nat), DecReady s → n ≤ 61 →
    ∃ t, exec (.run n) s = .next t ∧ DecPixelDone s t 1 s.dec.last (if n = 0 then 0 else n - 1)

/-- R179: the byte `0xFF` is a run with field 63 under `RUN63`, loading `REM` with 62, and raises
`FormatError(RESERVED_OP)` under `FAULT`. -/
def Obligations.ReservedByteFollowsPolicy : Prop :=
  (∀ rest : List Byte, decode (0xFF#8 :: rest) = .ok (.rsvFF, rest)) ∧
  (∀ s : State, DecReady s → s.cfg.ffPolicy = .run63 →
    ∃ t, exec .rsvFF s = .next t ∧ DecPixelDone s t 1 s.dec.last 62) ∧
  ∀ s : State, DecReady s → s.cfg.ffPolicy = .fault →
    ∃ t, exec .rsvFF s = .next t ∧ DecErrorEntered s t .reservedOp

/-- R171 and R215, and assumption log 7: an operation acts only in a `DEC_PIXEL` step that is enabled and reads
it; given to `exec` in any other state, a well-formed operation changes nothing, and an ill-formed one is
refused in every state (R84). -/
def Obligations.OperationActsOnlyWhenRead : Prop :=
  (∀ (s : State) (i : Instr), i.wf = true → ¬ DecReady s → exec i s = .next s) ∧
  ∀ (s : State) (i : Instr), i.wf = false → exec i s = .refused .operandOutOfRange

/-- The frame of all six operations (`INDEX`, `DIFF`, `LUMA`, `RUN`, `RGB`, `RSV_FF`): whatever next state `exec`
gives, the encoder, its ports, the parameters, `NPIX`, the input list and the offered start are as before;
every cache slot but the one of the new `LAST` is as before; pixels already delivered stand. -/
def Obligations.OperationsKeepTheRest : Prop :=
  ∀ (s t : State) (i : Instr), exec i s = .next t →
    DecStepRest s t ∧ (∀ k, k ≠ hash t.dec.last → cacheSlot t.dec.cache k = cacheSlot s.dec.cache k) ∧
    (t.decPorts.pixOut = s.decPorts.pixOut ∨ t.decPorts.pixOut = s.decPorts.pixOut ++ [t.dec.last])

/-! ### The decoder's pixel step around the operations -/

/-- When the bytes at `IN_POS` decode to an operation and it is `DEC`'s turn in a state ready to read, with no
reset and no `START` offered, the block's step is `exec` of that operation, with the turn passed to `ENC`
(the turn is the model's: assumption log 1). -/
def Obligations.StepRunsDecodedOperation : Prop :=
  ∀ (s : State) (i : Instr) (rest : List Byte), s.rst = false → s.turn = .dec → s.decPorts.start = none →
    DecReady s → decode (s.decPorts.byteIn.drop s.dec.inPos) = .ok (i, rest) →
    step s = exec i { s with turn := .enc }

/-- R172: with `REM > 0` the step yields `LAST`, takes 1 from `REM`, and reads no byte, so it completes even at end
of stream. -/
def Obligations.PendingRunServesLast : Prop :=
  ∀ s : State, s.dec.state = .running → s.pixRoom = true → s.decPorts.start = none → s.dec.rem ≠ 0#6 →
    ∃ t, decMove s = .next t ∧ DecPixelDone s t 0 s.dec.last (s.dec.rem.toNat - 1)

/-- R176 with R172: a run byte with field `n` in `1..61` accounts for `n` pixels in all, every one `LAST`, and
one byte of input. -/
def Obligations.RunByteAccountsForItsCount : Prop :=
  ∀ (s : State) (n : Nat) (rest : List Byte), DecReady s → s.decPorts.start = none →
    s.cfg.pixOutCap = none → 1 ≤ n → n ≤ 61 → s.dec.pixIdx + n ≤ s.dec.npix →
    LastCached s.dec.cache s.dec.last →
    s.unread = BitVec.ofNat 8 (0xC0 + n) :: rest →
    ∃ t, moves decMove n s = .next t ∧ t.decPorts.pixOut = s.decPorts.pixOut ++ List.replicate n s.dec.last ∧
      t.dec.inPos = s.dec.inPos + 1 ∧ t.dec.rem = 0#6 ∧ t.dec.pixIdx = s.dec.pixIdx + n ∧
      t.dec.last = s.dec.last ∧ t.dec.cache = s.dec.cache

/-- R182: a `DEC_PIXEL` step that finds end of stream in its first byte, in the second byte of a `LUMA`, or in
any payload byte of an `RGB` raises `FormatError(TRUNCATED)`. -/
def Obligations.EndOfStreamRaisesTruncated : Prop :=
  ∀ s : State, DecReady s → s.decPorts.start = none →
    (s.unread = [] ∨ (∃ b0 : Byte, 128 ≤ b0.toNat ∧ b0.toNat < 192 ∧ s.unread = [b0]) ∨
      ∃ tail : List Byte, s.unread = 0xFE#8 :: tail ∧ tail.length < 3) →
    ∃ t, decMove s = .next t ∧ DecErrorEntered s t .truncated

/-- R203 and R204: whenever a move of `DEC` takes it from `RUNNING` into `ERROR`, it wrote `STATE` and `ERR_CODE`
and nothing else, and delivered no pixel. -/
def Obligations.ErrorEntryWritesOnlyStateAndCode : Prop :=
  ∀ s t : State, s.dec.state = .running → decMove s = .next t → t.dec.state = .error →
    DecErrorEntered s t t.dec.errCode ∧ (t.dec.errCode = .truncated ∨ t.dec.errCode = .reservedOp)

/-- R202: `RESERVED_OP` is raised only under `FF_POLICY = FAULT`; under `RUN63` a move of `DEC` that enters
`ERROR` found the stream exhausted. -/
def Obligations.ReservedOpOnlyUnderFault : Prop :=
  ∀ s t : State, s.dec.state = .running → decMove s = .next t → t.dec.state = .error →
    s.cfg.ffPolicy = .run63 → t.dec.errCode = .truncated ∧ decode s.unread = .error .truncated

/-- R205: `ERROR` is sticky. A step of the block from it leaves every register and channel of `DEC` as it is,
unless it is hardware reset, or takes a `DEC_START`; both clear `ERR_CODE` and begin from the reset values. -/
def Obligations.ErrorIsSticky : Prop :=
  ∀ s t : State, s.dec.state = .error → step s = .next t →
    (t.dec = s.dec ∧ t.decPorts = s.decPorts) ∨
    (s.rst = true ∧ t.dec = DecUnit.reset) ∨
    (s.rst = false ∧ ∃ o, s.decPorts.start = some o ∧
      t.dec = { DecUnit.reset with
        npix := o.npix, state := if o.npix = 0 then UnitState.done else UnitState.running })

/-- R180: every `DEC_PIXEL` step that raises no error, whatever path it takes, delivers one color, writes it to
its slot and to `LAST`, and adds 1 to `PIX_IDX`. It consumed 0 bytes only if it served a run. The `UPDATE` comes
after the operation's `READ`: an `INDEX` yields what its slot held before the step. -/
def Obligations.EveryDecPixelStepCompletes : Prop :=
  ∀ s t : State, s.dec.state = .running → s.pixRoom = true → s.decPorts.start = none →
    decMove s = .next t → t.dec.state ≠ .error →
    ∃ (len : Nat) (c : Color) (rem : Nat), DecPixelDone s t len c rem ∧
      ((len = 0 ∧ s.dec.rem ≠ 0#6) ∨ ((len = 1 ∨ len = 2 ∨ len = 4) ∧ s.dec.rem = 0#6)) ∧
      ∀ (i : Nat) (after : List Byte), s.dec.rem = 0#6 → decode s.unread = .ok (.index i, after) →
        packColor c = cacheSlot s.dec.cache i

/-- R181: the step in which `PIX_IDX` reaches `NPIX` enters `DONE`, and in `DONE` a left-over `REM` is not served
and unread bytes are not consumed. -/
def Obligations.PassEndsAtPixelCount : Prop :=
  (∀ s t : State, s.dec.state = .running → s.pixRoom = true → s.decPorts.start = none →
    decMove s = .next t → t.dec.state ≠ .error → s.dec.pixIdx + 1 = s.dec.npix → t.dec.state = .done) ∧
  ∀ s : State, s.dec.state = .done → s.decPorts.start = none → decMove s = .next s

/-- R240 for `DEC`, which the spec derives from R171 and R52: a pass never stalls on its input. From `RUNNING`, with a channel that always takes its
pixels, `DEC` is in `DONE` or `ERROR` after as many moves as pixels are left. -/
def Obligations.DecoderPassEnds : Prop :=
  ∀ s : State, s.Inv → s.dec.state = .running → s.decPorts.start = none → s.cfg.pixOutCap = none →
    ∃ t, moves decMove (s.dec.npix - s.dec.pixIdx) s = .next t ∧
      (t.dec.state = .done ∨ t.dec.state = .error)

/-! ### The encoder -/

/-- R143: a pixel equal to `LAST` while `RUN < RUN_CAP` is absorbed. It emits nothing, except that the last pixel
of the pass flushes the run it extends (R150). -/
def Obligations.EncoderAbsorbsRunPixel : Prop :=
  ∀ (s : State) (rest : List Color), s.cfg.wf = true → EncReady s s.enc.last rest →
    s.enc.run.toNat < s.cfg.runCap →
    ∃ t, encMove s = .next t ∧
      (s.enc.pixIdx + 1 ≠ s.enc.npix → EncPixelDone s t s.enc.last rest [] (s.enc.run.toNat + 1)) ∧
      (s.enc.pixIdx + 1 = s.enc.npix →
        EncPixelDone s t s.enc.last rest [BitVec.ofNat 8 (0xC0 + (s.enc.run.toNat + 1))] 0)

/-- R144: a pixel that is not absorbed flushes a pending run, whose field is the count itself, and is followed in
the same step by exactly one `INDEX`, `DIFF`, `LUMA` or `RGB`; without a pending run there is no flush byte. -/
def Obligations.EncoderFlushesRunBeforeOperation : Prop :=
  ∀ (s : State) (c : Color) (rest : List Color), EncReady s c rest → s.enc.run.toNat ≤ 61 →
    NotAbsorbed s c →
    ∃ (t : State) (i : Instr) (bytes : List Byte), encMove s = .next t ∧ encode i = some bytes ∧
      (i.kind = .index ∨ i.kind = .diff ∨ i.kind = .luma ∨ i.kind = .rgb) ∧ bytes.length ≤ 4 ∧
      EncPixelDone s t c rest (flushBytes s.enc.run.toNat ++ bytes) 0

/-- R145: a pixel that is not absorbed and whose slot holds it is emitted as its slot index, after the flush of a
pending run. The hit comes before any delta. -/
def Obligations.EncoderEmitsIndexOnHit : Prop :=
  ∀ (s : State) (c : Color) (rest : List Color), EncReady s c rest → s.enc.run.toNat ≤ 61 →
    NotAbsorbed s c → ¬ Misses s.enc.cache c →
    ∃ t, encMove s = .next t ∧
      EncPixelDone s t c rest (flushBytes s.enc.run.toNat ++ [BitVec.ofNat 8 (hash c)]) 0

/-- R146: on a miss, deltas that each lie in `-2..1` are emitted as one `DIFF` byte, after the flush. -/
def Obligations.EncoderEmitsDiff : Prop :=
  ∀ (s : State) (c : Color) (rest : List Color) (dr dg db : Int), EncReady s c rest →
    s.enc.run.toNat ≤ 61 → NotAbsorbed s c → Misses s.enc.cache c →
    DiffDeltas c s.enc.last dr dg db →
    ∃ (t : State) (b0 : Byte), encMove s = .next t ∧
      (b0.toNat : Int) = 64 + (dr + 2) * 16 + (dg + 2) * 4 + (db + 2) ∧
      EncPixelDone s t c rest (flushBytes s.enc.run.toNat ++ [b0]) 0

/-- R147: on a miss, deltas that do not fit `DIFF` but fit `LUMA` are emitted as two bytes, after the flush. -/
def Obligations.EncoderEmitsLuma : Prop :=
  ∀ (s : State) (c : Color) (rest : List Color) (dr dg db : Int), EncReady s c rest →
    s.enc.run.toNat ≤ 61 → NotAbsorbed s c → Misses s.enc.cache c →
    (∀ dr' dg' db' : Int, ¬ DiffDeltas c s.enc.last dr' dg' db') → LumaDeltas c s.enc.last dr dg db →
    ∃ (t : State) (b0 b1 : Byte), encMove s = .next t ∧ (b0.toNat : Int) = 128 + (dg + 32) ∧
      (b1.toNat : Int) = (dr - dg + 8) * 16 + (db - dg + 8) ∧
      EncPixelDone s t c rest (flushBytes s.enc.run.toNat ++ [b0, b1]) 0

/-- R148: a pixel that neither is absorbed, nor hits, nor fits `DIFF` or `LUMA` is emitted raw, after the flush. -/
def Obligations.EncoderEmitsRawOtherwise : Prop :=
  ∀ (s : State) (c : Color) (rest : List Color), EncReady s c rest → s.enc.run.toNat ≤ 61 →
    NotAbsorbed s c → Misses s.enc.cache c →
    (∀ dr dg db : Int, ¬ DiffDeltas c s.enc.last dr dg db) →
    (∀ dr dg db : Int, ¬ LumaDeltas c s.enc.last dr dg db) →
    ∃ t, encMove s = .next t ∧
      EncPixelDone s t c rest (flushBytes s.enc.run.toNat ++ [0xFE#8, c.r, c.g, c.b]) 0

/-- The output bounds of R153, which the spec derives from R141 and R150, with the step 4 of R149: every move of `ENC`
that takes a pixel writes it to its slot and to `LAST`, adds 1 to `PIX_IDX` and emits at most 5 bytes; from a state
that meets the invariant the pass has emitted at most 4 bytes for each pixel taken. -/
def Obligations.EncoderStepEmitsAtMostFiveBytes : Prop :=
  (∀ (s t : State), s.encPorts.start = none → encMove s = .next t → t.enc.pixIdx ≠ s.enc.pixIdx →
    ∃ (c : Color) (rest : List Color) (out : List Byte) (run : Nat), s.encPorts.pixIn = c :: rest ∧
      out.length ≤ 5 ∧ EncPixelDone s t c rest out run) ∧
  ∀ (s t : State), s.Inv → encMove s = .next t → t.enc.outLen ≤ 4 * t.enc.pixIdx

/-- R150: in the step where `PIX_IDX` reaches `NPIX` the run count is zero afterwards and `ENC` is `DONE`; the
step's bytes are those of the pixel's decision followed by the flush of the run that decision leaves. -/
def Obligations.EncoderFlushesAtEndOfPass : Prop :=
  ∀ (s : State) (c : Color) (rest : List Color), s.Inv → EncReady s c rest →
    s.enc.pixIdx + 1 = s.enc.npix →
    ∃ (t : State) (bytes : List Byte), encMove s = .next t ∧
      encodeAll (encDecide s.cfg s.enc c).1 = some bytes ∧ t.enc.state = .done ∧
      EncPixelDone s t c rest (bytes ++ flushBytes (encDecide s.cfg s.enc c).2.toNat) 0

/-- R152, which the spec derives from R141 to R150: every operation an `ENC_PIXEL` step emits has its operands in range; it is never `RSV_FF`; a run field
lies in `1..RUN_CAP`; an index names a slot that holds exactly the pixel; and no operation's first byte is
`0xFF` or `0xC0`. -/
def Obligations.EncoderOutputIsLegal : Prop :=
  ∀ (s : State) (c : Color) (i : Instr), s.Inv → i ∈ (encOps s.cfg s.enc c).1 →
    i.wf = true ∧ i ≠ .rsvFF ∧ (∀ n, i = .run n → 1 ≤ n ∧ n ≤ s.cfg.runCap) ∧
    (∀ k, i = .index k → cacheSlot s.enc.cache k = packColor c) ∧
    ∃ (b0 : Byte) (tail : List Byte), encode i = some (b0 :: tail) ∧ b0 ≠ 0xFF#8 ∧ b0 ≠ 0xC0#8

/-- R151, which the spec derives from R143 to R145: `m` repeats of `LAST`, from `RUN = 0`, emit a run byte of `RUN_CAP` and an index of the color once for
every full `RUN_CAP + 1` pixels; the remainder is left pending in `RUN`, and is flushed as a run byte, if it is
not zero, when the pass ends with the last of them. The statement is about a `pix_in` that offers just those
pixels and a `byte_out` that never makes `ENC` wait (assumption log 3). -/
def Obligations.LongRunsAreCutAtTheCap : Prop :=
  ∀ (s : State) (m : Nat), s.Inv → s.enc.state = .running → s.encPorts.start = none →
    s.cfg.byteOutCap = none → s.enc.run = 0#6 → s.encPorts.pixIn = List.replicate m s.enc.last →
    0 < m → s.enc.pixIdx + m ≤ s.enc.npix →
    ∃ t, moves encMove m s = .next t ∧
      (s.enc.pixIdx + m < s.enc.npix → t.enc.run.toNat = m % (s.cfg.runCap + 1) ∧
        t.encPorts.byteOut = s.encPorts.byteOut ++ (List.replicate (m / (s.cfg.runCap + 1))
          [BitVec.ofNat 8 (0xC0 + s.cfg.runCap), BitVec.ofNat 8 (hash s.enc.last)]).flatten) ∧
      (s.enc.pixIdx + m = s.enc.npix → t.enc.run.toNat = 0 ∧
        t.encPorts.byteOut = s.encPorts.byteOut ++ (List.replicate (m / (s.cfg.runCap + 1))
          [BitVec.ofNat 8 (0xC0 + s.cfg.runCap), BitVec.ofNat 8 (hash s.enc.last)]).flatten ++
          flushBytes (m % (s.cfg.runCap + 1)))

/-- R155, which the spec derives from R141 and R38: in the state `ENC_START` leaves, a black first pixel is absorbed with `RUN` becoming 1, and any other
first pixel misses the cache and is emitted as one `DIFF`, `LUMA` or `RGB`. -/
def Obligations.FirstPixelOfAPass : Prop :=
  ∀ (s : State) (npix : Nat) (c : Color), s.cfg.wf = true →
    (c = black → encDecide s.cfg (encStart npix s).enc c = ([], 1#6)) ∧
    (c ≠ black → (lookup (encStart npix s).enc.cache c).1 = false ∧
      ∃ i : Instr, encDecide s.cfg (encStart npix s).enc c = ([i], 0#6) ∧
        (i.kind = .diff ∨ i.kind = .luma ∨ i.kind = .rgb))

/-- R154 and R207: from a state that meets the invariant, a move of `ENC` raises no error: it is neither refused
nor a fault, and `STATE` does not become `ERROR`. -/
def Obligations.EncoderRaisesNoError : Prop :=
  ∀ s : State, s.Inv → ∃ t, encMove s = .next t ∧ t.enc.state ≠ .error

/-- R51 and R240, with the channel capacities of assumption log 3. `ENC`, in `RUNNING` with a pixel offered, whose
step would emit the bytes `out`, takes the step whole exactly when `byte_out` accepts all of `out`; until then no
byte is emitted, the pixel stays offered, and nothing changes. `DEC`, in `RUNNING`, takes its step, which delivers
a pixel or enters `ERROR`, exactly when `pix_out` accepts a pixel, and waits unchanged until then, also with a step
that would raise an error (assumption log 14). -/
def Obligations.UnitsStepExactlyWhenThereIsRoom : Prop :=
  (∀ (s : State) (c : Color) (rest : List Color) (out : List Byte), s.enc.state = .running →
    s.encPorts.start = none → s.encPorts.pixIn = c :: rest →
    encodeAll (encOps s.cfg s.enc c).1 = some out →
    (s.byteRoom out.length = true → ∃ t, encMove s = .next t ∧
      EncPixelDone s t c rest out (encOps s.cfg s.enc c).2.toNat) ∧
    (s.byteRoom out.length = false → encMove s = .next s)) ∧
  ∀ s : State, s.dec.state = .running → s.decPorts.start = none →
    (s.pixRoom = true → ∃ t, decMove s = .next t ∧
      (t.dec.pixIdx = s.dec.pixIdx + 1 ∨ DecErrorEntered s t t.dec.errCode)) ∧
    (s.pixRoom = false → decMove s = .next s)

/-! ### Commands, reset and protocol -/

/-- R140: `ENC_START(npix)` in any `STATE` clears the cache, zeroes `LAST`, `RUN`, `PIX_IDX` and `OUT_LEN`, loads
`NPIX`, and enters `RUNNING`, or `DONE` when `npix = 0`; bytes already emitted stay on the channel. -/
def Obligations.EncStartReinitialises : Prop :=
  ∀ (s : State) (npix : Nat), s.encPorts.start = some npix → npix < 2 ^ s.cfg.npixW →
    ∃ t, encMove s = .next t ∧ (∀ k, cacheSlot t.enc.cache k = 0#24) ∧ t.enc.last = black ∧
      t.enc.run = 0#6 ∧ t.enc.npix = npix ∧ t.enc.pixIdx = 0 ∧ t.enc.outLen = 0 ∧
      t.enc.state = (if npix = 0 then .done else .running) ∧ t.encPorts.start = none ∧
      t.encPorts.byteOut = s.encPorts.byteOut ∧ t.encPorts.pixIn = s.encPorts.pixIn ∧
      t.dec = s.dec ∧ t.decPorts = s.decPorts ∧ t.cfg = s.cfg

/-- R170: `DEC_START(npix)` in any `STATE`, `ERROR` among them, clears the cache, zeroes `LAST`, `REM`, `PIX_IDX`
and `IN_POS`, sets `ERR_CODE` to `NONE`, loads `NPIX`, binds the input list, and enters `RUNNING`, or `DONE`
when `npix = 0`; pixels already delivered stand. -/
def Obligations.DecStartReinitialises : Prop :=
  ∀ (s : State) (o : DecStart), s.decPorts.start = some o → o.npix < 2 ^ s.cfg.npixW →
    ∃ t, decMove s = .next t ∧ (∀ k, cacheSlot t.dec.cache k = 0#24) ∧ t.dec.last = black ∧
      t.dec.rem = 0#6 ∧ t.dec.npix = o.npix ∧ t.dec.pixIdx = 0 ∧ t.dec.inPos = 0 ∧
      t.dec.errCode = .none ∧ t.dec.state = (if o.npix = 0 then .done else .running) ∧
      t.decPorts.start = none ∧ t.decPorts.byteIn = o.input ∧
      t.decPorts.pixOut = s.decPorts.pixOut ∧ t.enc = s.enc ∧ t.encPorts = s.encPorts ∧ t.cfg = s.cfg

/-- R230: hardware reset overrides whatever else is offered and gives both units their reset values at once; a
`START` after it leaves a unit exactly as `START` alone does. -/
def Obligations.HardwareResetValues : Prop :=
  ∀ s : State, s.rst = true → ∃ t, step s = .next t ∧ t.rst = false ∧
    (∀ k, cacheSlot t.enc.cache k = 0#24) ∧ (∀ k, cacheSlot t.dec.cache k = 0#24) ∧
    t.enc.last = black ∧ t.dec.last = black ∧ t.enc.run = 0#6 ∧ t.dec.rem = 0#6 ∧
    t.enc.npix = 0 ∧ t.dec.npix = 0 ∧ t.enc.pixIdx = 0 ∧ t.dec.pixIdx = 0 ∧
    t.enc.outLen = 0 ∧ t.dec.inPos = 0 ∧ t.dec.errCode = .none ∧
    t.enc.state = .idle ∧ t.dec.state = .idle ∧
    t.enc = State.reset.enc ∧ t.dec = State.reset.dec ∧ t.cfg = s.cfg ∧
    (∀ npix, (encStart npix t).enc = (encStart npix s).enc) ∧
    ∀ o, (decStart o t).dec = (decStart o s).dec

/-- R210, with the turn of assumption log 1 and the channels of assumption log 4, which hardware reset leaves as they
are: hardware reset first; otherwise the unit whose turn it is makes its
move, in which an offered `START` is taken before any pixel step. -/
def Obligations.ResetThenStartThenPixel : Prop :=
  (∀ s : State, s.rst = true → step s = .next (hardwareReset s)) ∧
  (∀ s : State, s.rst = false → s.turn = .enc → step s = encMove { s with turn := .dec }) ∧
  (∀ s : State, s.rst = false → s.turn = .dec → step s = decMove { s with turn := .enc }) ∧
  (∀ (s : State) (n : Nat), s.encPorts.start = some n → countFits s.cfg n = true →
    encMove s = .next (encStart n s)) ∧
  ∀ (s : State) (o : DecStart), s.decPorts.start = some o → countFits s.cfg o.npix = true →
    decMove s = .next (decStart o s)

/-- R215: outside `RUNNING`, and with no `START` offered, no pixel step is taken and no state changes; a pixel
offered to `ENC` stays untaken. In `RUNNING` with no pixel offered `ENC` waits, its flush not yet done. -/
def Obligations.NoPixelStepOutsideRunning : Prop :=
  (∀ s : State, s.enc.state = .running → s.encPorts.start = none → s.encPorts.pixIn = [] →
    encMove s = .next s) ∧
  (∀ s : State, s.enc.state ≠ .running → s.encPorts.start = none → encMove s = .next s) ∧
  ∀ s : State, s.dec.state ≠ .running → s.decPorts.start = none → decMove s = .next s

/-- R31: the transitions of each unit's `STATE` in one step of the block are the rows of the table: hardware
reset to `IDLE`; `START` to `RUNNING` or `DONE` by its count; a pixel step from `RUNNING` to `RUNNING` while
`PIX_IDX + 1 < NPIX` and to `DONE` when they are equal; an error of `DEC` from `RUNNING` to `ERROR`;
otherwise the unit does not change. -/
def Obligations.UnitStateTransitions : Prop :=
  ∀ s t : State, s.Inv → step s = .next t →
    (s.rst = true ∧ t.enc.state = .idle ∧ t.dec.state = .idle) ∨
    (s.rst = false ∧
      (t.enc = s.enc ∨
        (∃ n, s.encPorts.start = some n ∧
          ((0 < n ∧ t.enc.state = .running) ∨ (n = 0 ∧ t.enc.state = .done))) ∨
        (s.enc.state = .running ∧ t.enc.pixIdx = s.enc.pixIdx + 1 ∧
          ((s.enc.pixIdx + 1 < s.enc.npix ∧ t.enc.state = .running) ∨
           (s.enc.pixIdx + 1 = s.enc.npix ∧ t.enc.state = .done)))) ∧
      (t.dec = s.dec ∨
        (∃ o, s.decPorts.start = some o ∧
          ((0 < o.npix ∧ t.dec.state = .running) ∨ (o.npix = 0 ∧ t.dec.state = .done))) ∨
        (s.dec.state = .running ∧ t.dec.pixIdx = s.dec.pixIdx + 1 ∧
          ((s.dec.pixIdx + 1 < s.dec.npix ∧ t.dec.state = .running) ∨
           (s.dec.pixIdx + 1 = s.dec.npix ∧ t.dec.state = .done))) ∨
        (s.dec.state = .running ∧ t.dec.pixIdx = s.dec.pixIdx ∧ t.dec.state = .error)))

/-- R36, with the codes of R32: the codes the status ports show, and that no host action writes `STATE`, `ERR_CODE` or any other
register of a unit: the host changes them only through the `rst` and `start` it offers. -/
def Obligations.StatusCodesAndHostReadOnly : Prop :=
  (UnitState.idle.code = 0#2 ∧ UnitState.running.code = 1#2 ∧ UnitState.done.code = 2#2 ∧
    UnitState.error.code = 3#2) ∧
  (ErrCode.none.code = 0#2 ∧ ErrCode.truncated.code = 1#2 ∧ ErrCode.reservedOp.code = 2#2) ∧
  (∀ s : State, encStatus s = s.enc.state.code ∧ decStatus s = (s.dec.state.code, s.dec.errCode.code)) ∧
  (∀ s : State, s.Inv → encStatus s ≠ 3#2) ∧
  ∀ (a : HostAction) (s : State), (hostAct a s).enc = s.enc ∧ (hostAct a s).dec = s.dec ∧
    (hostAct a s).cfg = s.cfg

/-! ### Color cache -/

/-- R101, which the spec derives from R100: summing `3r + 5g + 7b` in any unsigned width of at least 6 bits gives the same slot. -/
def Obligations.HashIgnoresAdderWidth : Prop :=
  ∀ (c : Color) (w : Nat), 6 ≤ w →
    ((3 * c.r.toNat + 5 * c.g.toNat + 7 * c.b.toNat) % 2 ^ w) % 64 = hash c ∧ hash c < 64

/-- R102 and R103: `PACK` gives the slot layout `r + 256 g + 65536 b`; `UNPACK` inverts it both ways; `PACK` is
injective and gives 0 exactly for black. -/
def Obligations.PackIsInvertible : Prop :=
  (∀ c : Color, (packColor c).toNat = c.r.toNat + 256 * c.g.toNat + 65536 * c.b.toNat) ∧
  (∀ c : Color, unpackColor (packColor c) = c) ∧ (∀ v : Slot, packColor (unpackColor v) = v) ∧
  (∀ c d : Color, packColor c = packColor d ↔ c = d) ∧
  ∀ c : Color, packColor c = 0#24 ↔ c = black

/-- R105: `UPDATE(c)` writes exactly one slot, `HASH(c)`, with `PACK(c)`. -/
def Obligations.UpdateWritesOneSlot : Prop :=
  ∀ (m : Cache) (c : Color), cacheSlot (cacheUpdate m c) (hash c) = packColor c ∧
    (∀ k, k ≠ hash c → cacheSlot (cacheUpdate m c) k = cacheSlot m k) ∧
    (cacheSlot m (hash c) = packColor c → cacheUpdate m c = m)

/-- R109: a color that hashes to a slot holding a different color misses, and its `UPDATE` replaces the other,
which then misses; a hit always means that the slot holds exactly the color. -/
def Obligations.CollisionIsAMiss : Prop :=
  ∀ (m : Cache) (c d : Color), hash c = hash d → c ≠ d →
    (lookup (cacheUpdate m d) c).1 = false ∧
    (lookup (cacheUpdate (cacheUpdate m d) c) d).1 = false ∧
    (lookup (cacheUpdate (cacheUpdate m d) c) c).1 = true ∧
    ((lookup m c).1 = true → unpackColor (cacheSlot m (hash c)) = c)

/-- R111, which the spec derives from R102, R104 and R107: right after `CLEAR` the lookup of black hits at slot 0, every other color misses, and black keeps
hitting until a color that is not black and hashes to 0 is written. -/
def Obligations.ClearedCacheHitsOnlyBlack : Prop :=
  lookup cacheClear black = (true, 0) ∧ (∀ c : Color, (lookup cacheClear c).1 = true ↔ c = black) ∧
  ∀ (m : Cache) (c : Color), (lookup m black).1 = true →
    ((lookup (cacheUpdate m c) black).1 = true ↔ (c = black ∨ hash c ≠ 0))

/-- R24: in one step of the block each unit's cache is unchanged, or cleared, or written in exactly one slot by
the `UPDATE` of the color that becomes `LAST`. -/
def Obligations.CacheWrittenOnlyByClearAndUpdate : Prop :=
  ∀ s t : State, step s = .next t →
    (t.enc.cache = s.enc.cache ∨ t.enc.cache = cacheClear ∨ t.enc.cache = cacheUpdate s.enc.cache t.enc.last) ∧
    (t.dec.cache = s.dec.cache ∨ t.dec.cache = cacheClear ∨ t.dec.cache = cacheUpdate s.dec.cache t.dec.last)

/-! ### Encoding -/

/-- R126: `CLASSIFY` is total on the 256 first-byte values and divides them into the six kinds, with their
lengths (R80 lists the same ranges, as derived). -/
def Obligations.FirstBytesPartition : Prop :=
  ∀ b0 : Byte, classify b0 =
    if b0.toNat < 0x40 then (.index, 1) else if b0.toNat < 0x80 then (.diff, 1)
    else if b0.toNat < 0xC0 then (.luma, 2) else if b0.toNat < 0xFE then (.run, 1)
    else if b0.toNat = 0xFE then (.rgb, 4) else (.rsvFF, 1)

/-- R132, which the spec derives from R120 to R131: for every well-formed operation, with every operand value its encoding admits, the decoder reads back
exactly that operation from its bytes, whatever follows; its first byte gives its kind and its length. `RUN 0` is
among them, as R132 has it (assumption log 9). -/
def Obligations.DecodeInvertsEncode : Prop :=
  ∀ (i : Instr), i.wf = true → ∃ (b0 : Byte) (tail : List Byte), encode i = some (b0 :: tail) ∧
    classify b0 = (i.kind, (b0 :: tail).length) ∧ i.length = (b0 :: tail).length ∧
    ∀ rest : List Byte, decode (b0 :: tail ++ rest) = .ok (i, rest)

/-- R132's converse, which the spec derives from R120 to R131: every byte sequence the decoder accepts is the
encoding of one operation, which is well-formed, followed by the bytes left over; and no other operation's encoding
begins it, whatever would follow that encoding. That `0xC0` is the encoding of `RUN 0` is assumption log 9. -/
def Obligations.EncodeInvertsDecode : Prop :=
  ∀ (bs rest : List Byte) (i : Instr), decode bs = .ok (i, rest) →
    i.wf = true ∧ (∃ own, encode i = some own ∧ bs = own ++ rest) ∧
    ∀ (j : Instr) (own rest' : List Byte), encode j = some own → bs = own ++ rest' → j = i

/-- R125, with the operand ranges of R120 to R124: a packer called with an operand out of range is refused, and
inside the ranges it is not; no encoder step from a state that meets the invariant reaches the refusal. That
`PACK_RUN(0)` is not refused is the model's reading (assumption log 9): the range of R124 has it, and vector V-B8
refuses it. -/
def Obligations.PackersRefuseOutOfRange : Prop :=
  (∀ i : Nat, packIndex i = none ↔ ¬ i ≤ 63) ∧
  (∀ dr dg db : Int, packDiff dr dg db = none ↔
    ¬ ((-2 ≤ dr ∧ dr ≤ 1) ∧ (-2 ≤ dg ∧ dg ≤ 1) ∧ (-2 ≤ db ∧ db ≤ 1))) ∧
  (∀ dg drg dbg : Int, packLuma dg drg dbg = none ↔
    ¬ ((-32 ≤ dg ∧ dg ≤ 31) ∧ (-8 ≤ drg ∧ drg ≤ 7) ∧ (-8 ≤ dbg ∧ dbg ≤ 7))) ∧
  (∀ n : Nat, packRun n = none ↔ ¬ n ≤ 61) ∧ (∀ i : Instr, encode i = none ↔ i.wf = false) ∧
  ∀ (s : State) (c : Color), s.Inv → ∃ out, encodeAll (encOps s.cfg s.enc c).1 = some out

/-- Words written out from the formats of R72 to R76 and R81 decode to the operations they stand for, with the
opcode table's bit numbering (the first byte is bits 7..0). -/
def Obligations.SpecWordsDecode : Prop :=
  decodeTableWord 8 0b00_010100 = some (.index 20) ∧ decodeTableWord 8 0b01_01_10_11 = some (.diff (-1) 0 1) ∧
  decodeTableWord 16 0b1100_1000_10_011110 = some (.luma (-2) 4 0) ∧
  decodeTableWord 8 0b11_000011 = some (.run 3) ∧
  decodeTableWord 32 0b00011110_00010100_00001010_11111110 = some (.rgb 10#8 20#8 30#8) ∧
  decodeTableWord 8 0b11111111 = some .rsvFF

/-! ### The whole machine -/

/-- R25, R27 to R31, R38, R110: the invariant holds right after reset. -/
def Obligations.InvariantAtReset : Prop := State.reset.Inv

/-- Every step of the block keeps the invariant: slots hold colors that hash to them (R25), `LAST` is in its slot
(R110), and `RUN`, `REM`, `NPIX`, `PIX_IDX`, `STATE` and `ERR_CODE` stay in their ranges (R22, R23). -/
def Obligations.StepKeepsInvariant : Prop := ∀ s t : State, s.Inv → step s = .next t → t.Inv

/-- From a state that meets the invariant the block never stops: a step is neither refused nor a fault
(R154, R206, R213: an error leaves the unit waiting in `ERROR`, which is a state like any other). -/
def Obligations.InvariantStatesNeverStop : Prop := ∀ s : State, s.Inv → SafeStep s

/-- What the host does at the ports between two steps keeps the invariant (R35, R211). -/
def Obligations.HostActionsKeepInvariant : Prop :=
  ∀ (a : HostAction) (s : State), s.Inv → (hostAct a s).Inv

/-- R20: no step of one unit reads or writes state of the other. No writes: a step of the block in which one unit
moves leaves the other unit and its ports as they are. No reads: of two states that agree on one unit, its ports,
the parameters, the reset event and the turn, a step of the block gives states that agree on that unit and its
ports again, whatever the other unit holds. -/
def Obligations.UnitsShareNothing : Prop :=
  (∀ s t : State, s.rst = false → s.turn = .enc → step s = .next t →
    t.dec = s.dec ∧ t.decPorts = s.decPorts) ∧
  (∀ s t : State, s.rst = false → s.turn = .dec → step s = .next t →
    t.enc = s.enc ∧ t.encPorts = s.encPorts) ∧
  (∀ s₁ s₂ t₁ t₂ : State, s₁.cfg = s₂.cfg → s₁.rst = s₂.rst → s₁.turn = s₂.turn → s₁.dec = s₂.dec →
    s₁.decPorts = s₂.decPorts → step s₁ = .next t₁ → step s₂ = .next t₂ →
    t₁.dec = t₂.dec ∧ t₁.decPorts = t₂.decPorts) ∧
  ∀ s₁ s₂ t₁ t₂ : State, s₁.cfg = s₂.cfg → s₁.rst = s₂.rst → s₁.turn = s₂.turn → s₁.enc = s₂.enc →
    s₁.encPorts = s₂.encPorts → step s₁ = .next t₁ → step s₂ = .next t₂ →
    t₁.enc = t₂.enc ∧ t₁.encPorts = t₂.encPorts

/-- The order of the units' moves cannot be observed (R20, R62; the justification of assumption log 1): an `ENC`
move and a `DEC` move give the same state in either order. -/
def Obligations.UnitMovesCommute : Prop :=
  ∀ s t u : State, encMove s = .next t → decMove t = .next u →
    ∃ t', decMove s = .next t' ∧ encMove t' = .next u

/-- R51 and R53: a step of the block appends to `byte_out` and `pix_out` and takes nothing off them; it takes at
most the head of `pix_in`, and delivers at most one pixel. On the host's side of the ports, in the model's form of
them (assumption log 12): taking a byte or a pixel takes exactly the head of its channel, and changes nothing where
the channel is empty; an offered pixel goes behind those already offered; no other host action touches a channel.
The last clause is about every step, hardware reset among them: that reset leaves the channels as they are is the
model's choice (assumption log 4). -/
def Obligations.ChannelsAreFirstInFirstOut : Prop :=
  (∀ (s : State) (b : Byte) (rest : List Byte), s.encPorts.byteOut = b :: rest →
    hostAct .takeByte s = { s with encPorts := { s.encPorts with byteOut := rest } }) ∧
  (∀ (s : State) (c : Color) (rest : List Color), s.decPorts.pixOut = c :: rest →
    hostAct .takePixel s = { s with decPorts := { s.decPorts with pixOut := rest } }) ∧
  (∀ s : State, (s.encPorts.byteOut = [] → hostAct .takeByte s = s) ∧
    (s.decPorts.pixOut = [] → hostAct .takePixel s = s)) ∧
  (∀ (s : State) (c : Color), hostAct (.offerPixel c) s =
    { s with encPorts := { s.encPorts with pixIn := s.encPorts.pixIn ++ [c] } }) ∧
  (∀ (a : HostAction) (s : State),
    (a ≠ .takeByte → (hostAct a s).encPorts.byteOut = s.encPorts.byteOut) ∧
    (a ≠ .takePixel → (hostAct a s).decPorts.pixOut = s.decPorts.pixOut) ∧
    ((∀ c, a ≠ .offerPixel c) → (hostAct a s).encPorts.pixIn = s.encPorts.pixIn)) ∧
  ∀ s t : State, step s = .next t →
    (∃ out, t.encPorts.byteOut = s.encPorts.byteOut ++ out) ∧
    (t.encPorts.pixIn = s.encPorts.pixIn ∨ ∃ c, s.encPorts.pixIn = c :: t.encPorts.pixIn) ∧
    (t.decPorts.pixOut = s.decPorts.pixOut ∨ t.decPorts.pixOut = s.decPorts.pixOut ++ [t.dec.last])

/-- R29 and R63: a step of the block changes `NPIX` only by a `START` or hardware reset, the input list only by a
`DEC_START`, and the parameters never. No host action changes any of them, so bytes once bound are fixed; an
offered input waits with its `START` (assumption log 12). That hardware reset leaves the input list as it is is the
model's choice (assumption log 4). -/
def Obligations.CountsAndInputFixedDuringAPass : Prop :=
  (∀ (a : HostAction) (s : State), (hostAct a s).decPorts.byteIn = s.decPorts.byteIn ∧
    (hostAct a s).enc.npix = s.enc.npix ∧ (hostAct a s).dec.npix = s.dec.npix ∧
    (hostAct a s).cfg = s.cfg) ∧
  ∀ s t : State, step s = .next t → t.cfg = s.cfg ∧
    (s.rst = true ∨ s.encPorts.start ≠ none ∨ t.enc.npix = s.enc.npix) ∧
    (s.rst = true ∨ s.decPorts.start ≠ none ∨ t.dec.npix = s.dec.npix) ∧
    (s.decPorts.start ≠ none ∨ t.decPorts.byteIn = s.decPorts.byteIn)

/-- R183, which the spec derives from R141 and R171 to R180: `DEC` decodes what `ENC` emits. For every list of pixels that the count register can number, every
`RUN_CAP` in `1..61` and either `FF_POLICY`, with channels that never make a unit wait: the encode pass ends in
`DONE` with the bytes `B`; the decode pass over `B` delivers exactly those pixels, raises no error, consumes
all of `B`, and ends with `REM = 0`, its cache and `LAST` equal to the encoder's. -/
def Obligations.DecodeInvertsEncodePass : Prop :=
  ∀ (s : State) (pixels : List Color), s.cfg.wf = true → s.cfg.byteOutCap = none →
    s.cfg.pixOutCap = none → countFits s.cfg pixels.length = true →
    ∃ t u : State,
      moves encMove (pixels.length + 1)
        { s with encPorts := { start := some pixels.length, pixIn := pixels, byteOut := [] } } = .next t ∧
      t.enc.state = .done ∧ t.encPorts.pixIn = [] ∧ t.enc.outLen = t.encPorts.byteOut.length ∧
      moves decMove (pixels.length + 1)
        { s with decPorts :=
          { start := some { npix := pixels.length, input := t.encPorts.byteOut }
            byteIn := s.decPorts.byteIn, pixOut := [] } } = .next u ∧
      u.decPorts.pixOut = pixels ∧ u.dec.state = .done ∧ u.dec.errCode = .none ∧
      u.dec.inPos = t.encPorts.byteOut.length ∧ u.dec.rem = 0#6 ∧
      u.dec.cache = t.enc.cache ∧ u.dec.last = t.enc.last

/-- R112, which the spec derives from R108 and R183: after the `j`-th pixel step of each unit, `DEC`, decoding the stream `ENC` produces from the same
pixels, has the cache and the `LAST` of `ENC`, for every `j`. -/
def Obligations.UnitsStayInStep : Prop :=
  ∀ (s t : State) (pixels : List Color) (j : Nat), s.cfg.wf = true → s.cfg.byteOutCap = none →
    s.cfg.pixOutCap = none → countFits s.cfg pixels.length = true → j ≤ pixels.length →
    moves encMove (pixels.length + 1)
      { s with encPorts := { start := some pixels.length, pixIn := pixels, byteOut := [] } } = .next t →
    ∃ t' u' : State,
      moves encMove (j + 1)
        { s with encPorts := { start := some pixels.length, pixIn := pixels, byteOut := [] } } = .next t' ∧
      moves decMove (j + 1)
        { s with decPorts :=
          { start := some { npix := pixels.length, input := t.encPorts.byteOut }
            byteIn := s.decPorts.byteIn, pixOut := [] } } = .next u' ∧
      t'.enc.pixIdx = j ∧ u'.dec.pixIdx = j ∧ u'.decPorts.pixOut = pixels.take j ∧
      u'.dec.cache = t'.enc.cache ∧ u'.dec.last = t'.enc.last
end

