-- ==== Sys2Proof/Laws/Cache.lean ====
section
/-! SUPPORT. The color cache: bounds of `HASH`, reads after writes, and what `CLEAR` and `UPDATE` keep. -/

namespace Sys2Proof.Machine

theorem hash_lt (c : Color) : hash c < 64 := Nat.mod_lt _ (by decide)

@[simp] theorem hash_black : hash black = 0 := by decide

@[simp] theorem packColor_black : packColor black = 0#24 := by decide

@[simp] theorem cacheClear_eq : cacheClear = emptyCache := rfl

@[simp] theorem cacheSlot_emptyCache (k : Nat) : cacheSlot emptyCache k = 0#24 := by
  simp only [cacheSlot, emptyCache]
  by_cases h : k < 64 <;> simp [h]

/-- A slot written by `UPDATE` reads back the packed color. -/
@[simp] theorem cacheSlot_cacheUpdate_self (m : Cache) (c : Color) :
    cacheSlot (cacheUpdate m c) (hash c) = packColor c := by
  simp [cacheSlot, cacheUpdate, hash_lt]

/-- `UPDATE` leaves every other slot alone. -/
theorem cacheSlot_cacheUpdate_ne (m : Cache) (c : Color) (k : Nat) (h : k ≠ hash c) :
    cacheSlot (cacheUpdate m c) k = cacheSlot m k := by
  simp [cacheSlot, cacheUpdate, h.symm]

theorem cacheOk_emptyCache : CacheOk emptyCache := fun k _ => .inl (cacheSlot_emptyCache k)

theorem lastCached_emptyCache : LastCached emptyCache black := by simp [LastCached]

/-- `UPDATE` keeps every slot's color hashing to its slot. -/
theorem CacheOk.cacheUpdate {m : Cache} (h : CacheOk m) (c : Color) :
    CacheOk (Machine.cacheUpdate m c) := by
  intro k hk
  by_cases hc : k = hash c
  · subst hc
    exact .inr ⟨c, rfl, cacheSlot_cacheUpdate_self m c⟩
  · rw [cacheSlot_cacheUpdate_ne m c k hc]
    exact h k hk

/-- After `UPDATE(c)` and `LAST <- c` the last color is in its slot. -/
theorem lastCached_cacheUpdate (m : Cache) (c : Color) : LastCached (Machine.cacheUpdate m c) c :=
  cacheSlot_cacheUpdate_self m c

end Sys2Proof.Machine
end

