-- ==== Sys2Proof/Laws/Decode.lean ====
section
/-! SUPPORT. Bounds of the decoder's fields, and what a list of operations encodes to. -/

namespace Sys2Proof

theorem bitField_lt (b : Byte) (lo n : Nat) : bitField b lo n < 2 ^ n := (b.extractLsb' lo n).isLt

/-- A field as division and remainder, the form arithmetic works on. -/
theorem bitField_eq (b : Byte) (lo n : Nat) : bitField b lo n = b.toNat / 2 ^ lo % 2 ^ n := by
  simp [bitField, BitVec.extractLsb'_toNat, Nat.shiftRight_eq_div_pow]

@[simp] theorem inRange_iff (lo hi v : Int) : inRange lo hi v = true ↔ lo ≤ v ∧ v ≤ hi := by
  simp [inRange]

@[simp] theorem inRange_eq_false_iff (lo hi v : Int) : inRange lo hi v = false ↔ v < lo ∨ hi < v := by
  simp only [inRange, decide_eq_false_iff_not]
  omega

/-- The legal range of `RUN_CAP` (R6). -/
theorem Config.wf_iff (c : Config) : c.wf = true ↔ 1 ≤ c.runCap ∧ c.runCap ≤ 61 := by simp [Config.wf]

@[simp] theorem encodeAll_nil : encodeAll [] = some [] := rfl

/-- The bytes of a list of operations are the bytes of its head followed by those of its tail. -/
theorem encodeAll_cons (i : Instr) (is : List Instr) (bs rest : List Byte)
    (hi : encode i = some bs) (his : encodeAll is = some rest) :
    encodeAll (i :: is) = some (bs ++ rest) := by
  simp [encodeAll, hi, his]

/-- If a list of operations encodes, so do its head and its tail. -/
theorem encodeAll_cons_some {i : Instr} {is : List Instr} {out : List Byte}
    (h : encodeAll (i :: is) = some out) :
    ∃ bs rest, encode i = some bs ∧ encodeAll is = some rest ∧ out = bs ++ rest := by
  simp only [encodeAll] at h
  split at h
  · rename_i bs rest hi his
    exact ⟨bs, rest, hi, his, (Option.some.inj h).symm⟩
  · cases h

/-- Encoding distributes over appending lists of operations. -/
theorem encodeAll_append {is js : List Instr} {bs cs : List Byte}
    (hi : encodeAll is = some bs) (hj : encodeAll js = some cs) :
    encodeAll (is ++ js) = some (bs ++ cs) := by
  induction is generalizing bs with
  | nil => cases hi; simpa using hj
  | cons i is ih =>
    obtain ⟨b, r, hb, hr, rfl⟩ := encodeAll_cons_some hi
    simpa using encodeAll_cons i (is ++ js) b (r ++ cs) hb (ih hr)

/-- If an appended list encodes, so do its parts. -/
theorem encodeAll_append_some {is js : List Instr} {out : List Byte}
    (h : encodeAll (is ++ js) = some out) :
    ∃ bs cs, encodeAll is = some bs ∧ encodeAll js = some cs ∧ out = bs ++ cs := by
  induction is generalizing out with
  | nil => exact ⟨[], out, rfl, h, rfl⟩
  | cons i is ih =>
    obtain ⟨b, r, hb, hr, rfl⟩ := encodeAll_cons_some h
    obtain ⟨bs, cs, hbs, hcs, rfl⟩ := ih hr
    exact ⟨b ++ bs, cs, encodeAll_cons i is b bs hb hbs, hcs, by simp⟩

/-- An operation's bytes are as many as its length. -/
theorem encode_length {i : Instr} {bs : List Byte} (h : encode i = some bs) : bs.length = i.length := by
  cases i <;> simp only [encode, packIndex, packDiff, packLuma, packRun, packRgb] at h <;>
    first
    | (split at h <;> cases h <;> rfl)
    | (cases h; rfl)

/-- An operation has one, two or four bytes (R83). -/
theorem instr_length_cases (i : Instr) : i.length = 1 ∨ i.length = 2 ∨ i.length = 4 := by
  cases i <;> simp [Instr.length]

end Sys2Proof
end

