-- ==== Sys2Proof/Laws/State.lean ====
section
/-! SUPPORT. What each update of the state does to each field: one lemma a field, true by `rfl`, so that no proof unfolds an update. -/

namespace Sys2Proof.Machine

/-! ### `completePixel` (R180, R181) -/

@[simp] theorem completePixel_cfg (s : State) (len : Nat) (c : Color) (rem : BitVec 6) : (completePixel s len c rem).cfg = s.cfg := rfl
@[simp] theorem completePixel_rst (s : State) (len : Nat) (c : Color) (rem : BitVec 6) : (completePixel s len c rem).rst = s.rst := rfl
@[simp] theorem completePixel_turn (s : State) (len : Nat) (c : Color) (rem : BitVec 6) : (completePixel s len c rem).turn = s.turn := rfl
@[simp] theorem completePixel_enc (s : State) (len : Nat) (c : Color) (rem : BitVec 6) : (completePixel s len c rem).enc = s.enc := rfl
@[simp] theorem completePixel_encPorts (s : State) (len : Nat) (c : Color) (rem : BitVec 6) : (completePixel s len c rem).encPorts = s.encPorts := rfl
@[simp] theorem completePixel_dec_cache (s : State) (len : Nat) (c : Color) (rem : BitVec 6) : (completePixel s len c rem).dec.cache = cacheUpdate s.dec.cache c := rfl
@[simp] theorem completePixel_dec_last (s : State) (len : Nat) (c : Color) (rem : BitVec 6) : (completePixel s len c rem).dec.last = c := rfl
@[simp] theorem completePixel_dec_rem (s : State) (len : Nat) (c : Color) (rem : BitVec 6) : (completePixel s len c rem).dec.rem = rem := rfl
@[simp] theorem completePixel_dec_npix (s : State) (len : Nat) (c : Color) (rem : BitVec 6) : (completePixel s len c rem).dec.npix = s.dec.npix := rfl
@[simp] theorem completePixel_dec_pixIdx (s : State) (len : Nat) (c : Color) (rem : BitVec 6) : (completePixel s len c rem).dec.pixIdx = s.dec.pixIdx + 1 := rfl
@[simp] theorem completePixel_dec_inPos (s : State) (len : Nat) (c : Color) (rem : BitVec 6) : (completePixel s len c rem).dec.inPos = s.dec.inPos + len := rfl
@[simp] theorem completePixel_dec_state (s : State) (len : Nat) (c : Color) (rem : BitVec 6) : (completePixel s len c rem).dec.state = stateAfterPixel s.dec.pixIdx s.dec.npix s.dec.state := rfl
@[simp] theorem completePixel_dec_errCode (s : State) (len : Nat) (c : Color) (rem : BitVec 6) : (completePixel s len c rem).dec.errCode = s.dec.errCode := rfl
@[simp] theorem completePixel_decPorts_start (s : State) (len : Nat) (c : Color) (rem : BitVec 6) : (completePixel s len c rem).decPorts.start = s.decPorts.start := rfl
@[simp] theorem completePixel_decPorts_byteIn (s : State) (len : Nat) (c : Color) (rem : BitVec 6) : (completePixel s len c rem).decPorts.byteIn = s.decPorts.byteIn := rfl
@[simp] theorem completePixel_decPorts_pixOut (s : State) (len : Nat) (c : Color) (rem : BitVec 6) : (completePixel s len c rem).decPorts.pixOut = s.decPorts.pixOut ++ [c] := rfl

/-! ### `raiseFormatError` (R203, R204) -/

@[simp] theorem raiseFormatError_cfg (code : ErrCode) (s : State) : (raiseFormatError code s).cfg = s.cfg := rfl
@[simp] theorem raiseFormatError_rst (code : ErrCode) (s : State) : (raiseFormatError code s).rst = s.rst := rfl
@[simp] theorem raiseFormatError_turn (code : ErrCode) (s : State) : (raiseFormatError code s).turn = s.turn := rfl
@[simp] theorem raiseFormatError_enc (code : ErrCode) (s : State) : (raiseFormatError code s).enc = s.enc := rfl
@[simp] theorem raiseFormatError_encPorts (code : ErrCode) (s : State) : (raiseFormatError code s).encPorts = s.encPorts := rfl
@[simp] theorem raiseFormatError_dec_cache (code : ErrCode) (s : State) : (raiseFormatError code s).dec.cache = s.dec.cache := rfl
@[simp] theorem raiseFormatError_dec_last (code : ErrCode) (s : State) : (raiseFormatError code s).dec.last = s.dec.last := rfl
@[simp] theorem raiseFormatError_dec_rem (code : ErrCode) (s : State) : (raiseFormatError code s).dec.rem = s.dec.rem := rfl
@[simp] theorem raiseFormatError_dec_npix (code : ErrCode) (s : State) : (raiseFormatError code s).dec.npix = s.dec.npix := rfl
@[simp] theorem raiseFormatError_dec_pixIdx (code : ErrCode) (s : State) : (raiseFormatError code s).dec.pixIdx = s.dec.pixIdx := rfl
@[simp] theorem raiseFormatError_dec_inPos (code : ErrCode) (s : State) : (raiseFormatError code s).dec.inPos = s.dec.inPos := rfl
@[simp] theorem raiseFormatError_dec_state (code : ErrCode) (s : State) : (raiseFormatError code s).dec.state = .error := rfl
@[simp] theorem raiseFormatError_dec_errCode (code : ErrCode) (s : State) : (raiseFormatError code s).dec.errCode = code := rfl
@[simp] theorem raiseFormatError_decPorts (code : ErrCode) (s : State) : (raiseFormatError code s).decPorts = s.decPorts := rfl

/-! ### `encComplete` (R149, R150) -/

@[simp] theorem encComplete_cfg (s : State) (c : Color) (rest : List Color) (out : List Byte) (run : BitVec 6) : (encComplete s c rest out run).cfg = s.cfg := rfl
@[simp] theorem encComplete_rst (s : State) (c : Color) (rest : List Color) (out : List Byte) (run : BitVec 6) : (encComplete s c rest out run).rst = s.rst := rfl
@[simp] theorem encComplete_turn (s : State) (c : Color) (rest : List Color) (out : List Byte) (run : BitVec 6) : (encComplete s c rest out run).turn = s.turn := rfl
@[simp] theorem encComplete_enc_cache (s : State) (c : Color) (rest : List Color) (out : List Byte) (run : BitVec 6) : (encComplete s c rest out run).enc.cache = cacheUpdate s.enc.cache c := rfl
@[simp] theorem encComplete_enc_last (s : State) (c : Color) (rest : List Color) (out : List Byte) (run : BitVec 6) : (encComplete s c rest out run).enc.last = c := rfl
@[simp] theorem encComplete_enc_run (s : State) (c : Color) (rest : List Color) (out : List Byte) (run : BitVec 6) : (encComplete s c rest out run).enc.run = run := rfl
@[simp] theorem encComplete_enc_npix (s : State) (c : Color) (rest : List Color) (out : List Byte) (run : BitVec 6) : (encComplete s c rest out run).enc.npix = s.enc.npix := rfl
@[simp] theorem encComplete_enc_pixIdx (s : State) (c : Color) (rest : List Color) (out : List Byte) (run : BitVec 6) : (encComplete s c rest out run).enc.pixIdx = s.enc.pixIdx + 1 := rfl
@[simp] theorem encComplete_enc_state (s : State) (c : Color) (rest : List Color) (out : List Byte) (run : BitVec 6) : (encComplete s c rest out run).enc.state = stateAfterPixel s.enc.pixIdx s.enc.npix s.enc.state := rfl
@[simp] theorem encComplete_enc_outLen (s : State) (c : Color) (rest : List Color) (out : List Byte) (run : BitVec 6) : (encComplete s c rest out run).enc.outLen = s.enc.outLen + out.length := rfl
@[simp] theorem encComplete_encPorts_start (s : State) (c : Color) (rest : List Color) (out : List Byte) (run : BitVec 6) : (encComplete s c rest out run).encPorts.start = s.encPorts.start := rfl
@[simp] theorem encComplete_encPorts_pixIn (s : State) (c : Color) (rest : List Color) (out : List Byte) (run : BitVec 6) : (encComplete s c rest out run).encPorts.pixIn = rest := rfl
@[simp] theorem encComplete_encPorts_byteOut (s : State) (c : Color) (rest : List Color) (out : List Byte) (run : BitVec 6) : (encComplete s c rest out run).encPorts.byteOut = s.encPorts.byteOut ++ out := rfl
@[simp] theorem encComplete_dec (s : State) (c : Color) (rest : List Color) (out : List Byte) (run : BitVec 6) : (encComplete s c rest out run).dec = s.dec := rfl
@[simp] theorem encComplete_decPorts (s : State) (c : Color) (rest : List Color) (out : List Byte) (run : BitVec 6) : (encComplete s c rest out run).decPorts = s.decPorts := rfl

/-! ### `encStart` (R140) -/

@[simp] theorem encStart_cfg (n : Nat) (s : State) : (encStart n s).cfg = s.cfg := rfl
@[simp] theorem encStart_rst (n : Nat) (s : State) : (encStart n s).rst = s.rst := rfl
@[simp] theorem encStart_turn (n : Nat) (s : State) : (encStart n s).turn = s.turn := rfl
@[simp] theorem encStart_enc_cache (n : Nat) (s : State) : (encStart n s).enc.cache = emptyCache := rfl
@[simp] theorem encStart_enc_last (n : Nat) (s : State) : (encStart n s).enc.last = black := rfl
@[simp] theorem encStart_enc_run (n : Nat) (s : State) : (encStart n s).enc.run = 0#6 := rfl
@[simp] theorem encStart_enc_npix (n : Nat) (s : State) : (encStart n s).enc.npix = n := rfl
@[simp] theorem encStart_enc_pixIdx (n : Nat) (s : State) : (encStart n s).enc.pixIdx = 0 := rfl
@[simp] theorem encStart_enc_state (n : Nat) (s : State) : (encStart n s).enc.state = startState n := rfl
@[simp] theorem encStart_enc_outLen (n : Nat) (s : State) : (encStart n s).enc.outLen = 0 := rfl
@[simp] theorem encStart_encPorts_start (n : Nat) (s : State) : (encStart n s).encPorts.start = none := rfl
@[simp] theorem encStart_encPorts_pixIn (n : Nat) (s : State) : (encStart n s).encPorts.pixIn = s.encPorts.pixIn := rfl
@[simp] theorem encStart_encPorts_byteOut (n : Nat) (s : State) : (encStart n s).encPorts.byteOut = s.encPorts.byteOut := rfl
@[simp] theorem encStart_dec (n : Nat) (s : State) : (encStart n s).dec = s.dec := rfl
@[simp] theorem encStart_decPorts (n : Nat) (s : State) : (encStart n s).decPorts = s.decPorts := rfl

/-! ### `decStart` (R170) -/

@[simp] theorem decStart_cfg (o : DecStart) (s : State) : (decStart o s).cfg = s.cfg := rfl
@[simp] theorem decStart_rst (o : DecStart) (s : State) : (decStart o s).rst = s.rst := rfl
@[simp] theorem decStart_turn (o : DecStart) (s : State) : (decStart o s).turn = s.turn := rfl
@[simp] theorem decStart_enc (o : DecStart) (s : State) : (decStart o s).enc = s.enc := rfl
@[simp] theorem decStart_encPorts (o : DecStart) (s : State) : (decStart o s).encPorts = s.encPorts := rfl
@[simp] theorem decStart_dec_cache (o : DecStart) (s : State) : (decStart o s).dec.cache = emptyCache := rfl
@[simp] theorem decStart_dec_last (o : DecStart) (s : State) : (decStart o s).dec.last = black := rfl
@[simp] theorem decStart_dec_rem (o : DecStart) (s : State) : (decStart o s).dec.rem = 0#6 := rfl
@[simp] theorem decStart_dec_npix (o : DecStart) (s : State) : (decStart o s).dec.npix = o.npix := rfl
@[simp] theorem decStart_dec_pixIdx (o : DecStart) (s : State) : (decStart o s).dec.pixIdx = 0 := rfl
@[simp] theorem decStart_dec_inPos (o : DecStart) (s : State) : (decStart o s).dec.inPos = 0 := rfl
@[simp] theorem decStart_dec_state (o : DecStart) (s : State) : (decStart o s).dec.state = startState o.npix := rfl
@[simp] theorem decStart_dec_errCode (o : DecStart) (s : State) : (decStart o s).dec.errCode = .none := rfl
@[simp] theorem decStart_decPorts_start (o : DecStart) (s : State) : (decStart o s).decPorts.start = none := rfl
@[simp] theorem decStart_decPorts_byteIn (o : DecStart) (s : State) : (decStart o s).decPorts.byteIn = o.input := rfl
@[simp] theorem decStart_decPorts_pixOut (o : DecStart) (s : State) : (decStart o s).decPorts.pixOut = s.decPorts.pixOut := rfl

/-! ### `hardwareReset` (R230) -/

@[simp] theorem hardwareReset_cfg (s : State) : (hardwareReset s).cfg = s.cfg := rfl
@[simp] theorem hardwareReset_rst (s : State) : (hardwareReset s).rst = false := rfl
@[simp] theorem hardwareReset_turn (s : State) : (hardwareReset s).turn = s.turn := rfl
@[simp] theorem hardwareReset_enc (s : State) : (hardwareReset s).enc = EncUnit.reset := rfl
@[simp] theorem hardwareReset_encPorts (s : State) : (hardwareReset s).encPorts = s.encPorts := rfl
@[simp] theorem hardwareReset_dec (s : State) : (hardwareReset s).dec = DecUnit.reset := rfl
@[simp] theorem hardwareReset_decPorts (s : State) : (hardwareReset s).decPorts = s.decPorts := rfl

/-! ### `passTurn` (assumption log 1) -/

@[simp] theorem passTurn_cfg (s : State) : (passTurn s).cfg = s.cfg := rfl
@[simp] theorem passTurn_rst (s : State) : (passTurn s).rst = s.rst := rfl
@[simp] theorem passTurn_turn (s : State) : (passTurn s).turn = (match s.turn with | .enc => .dec | .dec => .enc) := rfl
@[simp] theorem passTurn_enc (s : State) : (passTurn s).enc = s.enc := rfl
@[simp] theorem passTurn_encPorts (s : State) : (passTurn s).encPorts = s.encPorts := rfl
@[simp] theorem passTurn_dec (s : State) : (passTurn s).dec = s.dec := rfl
@[simp] theorem passTurn_decPorts (s : State) : (passTurn s).decPorts = s.decPorts := rfl

/-! ### What the updates leave of the derived reads -/

@[simp] theorem passTurn_unread (s : State) : (passTurn s).unread = s.unread := rfl
@[simp] theorem passTurn_pixRoom (s : State) : (passTurn s).pixRoom = s.pixRoom := rfl
@[simp] theorem passTurn_byteRoom (s : State) (n : Nat) : (passTurn s).byteRoom n = s.byteRoom n := rfl
@[simp] theorem passTurn_decEnabled (s : State) : (passTurn s).decEnabled = s.decEnabled := rfl
@[simp] theorem passTurn_decReads (s : State) : (passTurn s).decReads = s.decReads := rfl

end Sys2Proof.Machine
end

