-- ==== Sys2Proof/Laws/Exec.lean ====
section
/-! SUPPORT. What each shared operation and each move can do: one inversion lemma per function, cited instead of unfolding it. -/

namespace Sys2Proof.Machine

/-! ### Channel arithmetic -/

/-- `u8(v)` is the Euclidean remainder of `v` by 256 (R8). -/
theorem toNat_u8 (v : Int) : ((u8 v).toNat : Int) = v % 256 := by
  simp only [u8, BitVec.toNat_ofInt]
  omega

/-! ### Enables -/

theorem decReads_iff (s : State) : s.decReads = true ↔ DecReady s := by
  constructor
  · intro h
    simp only [State.decReads, State.decEnabled, Bool.and_eq_true, decide_eq_true_eq] at h
    exact ⟨h.1.1, h.2, h.1.2⟩
  · rintro ⟨h1, h2, h3⟩
    simp [State.decReads, State.decEnabled, h1, h2, h3]

theorem decEnabled_iff (s : State) :
    s.decEnabled = true ↔ s.dec.state = .running ∧ s.pixRoom = true := by
  simp [State.decEnabled]

/-! ### The meanings -/

/-- A meaning in a state that reads its operation, with operands in range, gives its next state. -/
theorem whenRead_ready {i : Instr} {s after : State} (hi : i.wf = true) (h : DecReady s) :
    whenRead i s after = .next after := by
  simp [whenRead, hi, (decReads_iff s).mpr h]

/-- All a meaning's frame can do when it gives a next state. -/
theorem whenRead_next {i : Instr} {s after t : State} (h : whenRead i s after = .next t) :
    i.wf = true ∧ ((DecReady s ∧ t = after) ∨ (¬ DecReady s ∧ t = s)) := by
  unfold whenRead at h
  split at h
  · rename_i hi
    refine ⟨hi, ?_⟩
    split at h
    · rename_i hr
      exact .inl ⟨(decReads_iff s).mp hr, (Host.Outcome.next.inj h).symm⟩
    · rename_i hr
      exact .inr ⟨fun hd => hr ((decReads_iff s).mpr hd), (Host.Outcome.next.inj h).symm⟩
  · cases h

/-- The color, the bytes consumed and the `REM` of a completed operation, as R174 to R179 give them. -/
def opEffect (i : Instr) (s : State) : Color × Nat × BitVec 6 :=
  match i with
  | .index k => (readColor s.dec.cache k, 1, s.dec.rem)
  | .diff dr dg db => (diffColor s.dec.last dr dg db, 1, s.dec.rem)
  | .luma dg drg dbg => (lumaColor s.dec.last dg drg dbg, 2, s.dec.rem)
  | .run n => (s.dec.last, 1, runRemainder n)
  | .rgb r g b => ({ r := r, g := g, b := b }, 4, s.dec.rem)
  | .rsvFF => (s.dec.last, 1, runRemainder 63)

/-- The state after an operation that is read: a completed pixel, but for the reserved byte under `FAULT`. -/
def opAfter (i : Instr) (s : State) : State :=
  if i = .rsvFF ∧ s.cfg.ffPolicy = .fault then raiseFormatError .reservedOp s
  else completePixel s (opEffect i s).2.1 (opEffect i s).1 (opEffect i s).2.2

/-- `exec` as one frame around `opAfter`. -/
theorem exec_eq (i : Instr) (s : State) : exec i s = whenRead i s (opAfter i s) := by
  cases i <;>
    simp only [exec, execIndex, execDiff, execLuma, execRun, execRgb, execRsvFF, opAfter, opEffect,
      reduceCtorEq, false_and, if_false, true_and]
  split <;> simp_all

/-- An operation in range, in a state ready to read it, gives the state its rule says. -/
theorem exec_ready {i : Instr} {s : State} (hi : i.wf = true) (h : DecReady s) :
    exec i s = .next (opAfter i s) := by
  rw [exec_eq, whenRead_ready hi h]

/-- All `exec` can do when it gives a next state: nothing; one completed pixel; or the error of the reserved
byte. -/
theorem exec_next {i : Instr} {s t : State} (h : exec i s = .next t) :
    (¬ DecReady s ∧ t = s) ∨
    (DecReady s ∧ t = completePixel s (opEffect i s).2.1 (opEffect i s).1 (opEffect i s).2.2) ∨
    (DecReady s ∧ i = .rsvFF ∧ s.cfg.ffPolicy = .fault ∧ t = raiseFormatError .reservedOp s) := by
  rw [exec_eq] at h
  obtain ⟨-, ⟨hr, rfl⟩ | hn⟩ := whenRead_next h
  · unfold opAfter
    split
    · rename_i hp
      exact .inr (.inr ⟨hr, hp.1, hp.2, rfl⟩)
    · exact .inr (.inl ⟨hr, rfl⟩)
  · exact .inl hn

/-- A completed pixel, field by field. -/
theorem decPixelDone_completePixel {s : State} (h : s.dec.state = .running) (len : Nat) (c : Color)
    (rem : BitVec 6) : DecPixelDone s (completePixel s len c rem) len c rem.toNat where
  pixel := rfl
  last := rfl
  slot := cacheSlot_cacheUpdate_self _ _
  otherSlots := fun k hk => cacheSlot_cacheUpdate_ne _ _ k hk
  rem := rfl
  pixIdx := rfl
  inPos := rfl
  state := by simp [stateAfterPixel, h]
  errCode := rfl
  rest := ⟨rfl, rfl, rfl, rfl, rfl, rfl, rfl, rfl⟩

/-- An error entry, field by field. -/
theorem decErrorEntered_raiseFormatError (s : State) (code : ErrCode) :
    DecErrorEntered s (raiseFormatError code s) code where
  state := rfl
  errCode := rfl
  cache := rfl
  last := rfl
  rem := rfl
  pixIdx := rfl
  inPos := rfl
  pixel := rfl
  rest := ⟨rfl, rfl, rfl, rfl, rfl, rfl, rfl, rfl⟩

/-! ### One move of `DEC` -/

/-- All a move of `DEC` can do when it gives a next state. -/
theorem decMove_next {s t : State} (h : decMove s = .next t) :
    (∃ o, s.decPorts.start = some o ∧ countFits s.cfg o.npix = true ∧ t = decStart o s) ∨
    (s.decPorts.start = none ∧ s.decEnabled = false ∧ t = s) ∨
    (s.decPorts.start = none ∧ s.decEnabled = true ∧ s.dec.rem ≠ 0#6 ∧ t = servePending s) ∨
    (s.decPorts.start = none ∧ DecReady s ∧ decode s.unread = .error .truncated ∧
      t = raiseFormatError .truncated s) ∨
    (s.decPorts.start = none ∧ DecReady s ∧
      ∃ i rest, decode s.unread = .ok (i, rest) ∧ exec i s = .next t) := by
  unfold decMove at h
  split at h
  · rename_i o ho
    split at h
    · rename_i hf
      exact .inl ⟨o, ho, hf, (Host.Outcome.next.inj h).symm⟩
    · cases h
  · rename_i hn
    split at h
    · rename_i he
      unfold decPixel at h
      split at h
      · rename_i hr
        have ready : DecReady s :=
          ⟨((decEnabled_iff s).mp he).1, hr, ((decEnabled_iff s).mp he).2⟩
        split at h
        · rename_i i rest hd
          exact .inr (.inr (.inr (.inr ⟨hn, ready, i, rest, hd, h⟩)))
        · rename_i hd
          exact .inr (.inr (.inr (.inl ⟨hn, ready, hd, (Host.Outcome.next.inj h).symm⟩)))
      · rename_i hr
        exact .inr (.inr (.inl ⟨hn, he, hr, (Host.Outcome.next.inj h).symm⟩))
    · rename_i he
      exact .inr (.inl ⟨hn, by simpa using he, (Host.Outcome.next.inj h).symm⟩)

/-- A move of `DEC` that reads an operation is `exec` of it. -/
theorem decMove_reads {s : State} {i : Instr} {rest : List Byte} (hs : s.decPorts.start = none)
    (h : DecReady s) (hd : decode s.unread = .ok (i, rest)) : decMove s = exec i s := by
  have he := (decEnabled_iff s).mpr ⟨h.running, h.room⟩
  simp [decMove, decPixel, hs, he, h.noRun, hd]

/-- A move of `DEC` that finds end of stream enters the error. -/
theorem decMove_truncated {s : State} (hs : s.decPorts.start = none) (h : DecReady s)
    (hd : decode s.unread = .error .truncated) : decMove s = .next (raiseFormatError .truncated s) := by
  have he := (decEnabled_iff s).mpr ⟨h.running, h.room⟩
  simp [decMove, decPixel, hs, he, h.noRun, hd]

/-- A move of `DEC` with a run pending serves it. -/
theorem decMove_pending {s : State} (hs : s.decPorts.start = none) (h : s.dec.state = .running)
    (hr : s.pixRoom = true) (hrem : s.dec.rem ≠ 0#6) : decMove s = .next (servePending s) := by
  have he := (decEnabled_iff s).mpr ⟨h, hr⟩
  simp [decMove, decPixel, hs, he, hrem]

/-! ### One move of `ENC` -/

/-- All a move of `ENC` can do when it gives a next state: take a `START`, wait, or encode one pixel. -/
theorem encMove_next {s t : State} (h : encMove s = .next t) :
    (∃ n, s.encPorts.start = some n ∧ countFits s.cfg n = true ∧ t = encStart n s) ∨
    (s.encPorts.start = none ∧ t = s) ∨
    (s.encPorts.start = none ∧ s.enc.state = .running ∧
      ∃ c rest out, s.encPorts.pixIn = c :: rest ∧ encodeAll (encOps s.cfg s.enc c).1 = some out ∧
        s.byteRoom out.length = true ∧ t = encComplete s c rest out (encOps s.cfg s.enc c).2) := by
  unfold encMove at h
  split at h
  · rename_i n hn
    split at h
    · rename_i hf
      exact .inl ⟨n, hn, hf, (Host.Outcome.next.inj h).symm⟩
    · cases h
  · rename_i hn
    split at h
    · exact .inr (.inl ⟨hn, (Host.Outcome.next.inj h).symm⟩)
    · rename_i c rest hp
      unfold encPixel at h
      split at h
      · rename_i hrun
        split at h
        · rename_i out ho
          split at h
          · rename_i hroom
            exact .inr (.inr ⟨hn, hrun, c, rest, out, hp, ho, hroom, (Host.Outcome.next.inj h).symm⟩)
          · exact .inr (.inl ⟨hn, (Host.Outcome.next.inj h).symm⟩)
        · cases h
      · exact .inr (.inl ⟨hn, (Host.Outcome.next.inj h).symm⟩)

/-- A move of `ENC` that takes a pixel whose operations encode and fit the channel. -/
theorem encMove_pixel {s : State} {c : Color} {rest : List Color} {out : List Byte}
    (hs : s.encPorts.start = none) (hp : s.encPorts.pixIn = c :: rest) (hrun : s.enc.state = .running)
    (ho : encodeAll (encOps s.cfg s.enc c).1 = some out) (hroom : s.byteRoom out.length = true) :
    encMove s = .next (encComplete s c rest out (encOps s.cfg s.enc c).2) := by
  simp [encMove, encPixel, hs, hp, hrun, ho, hroom]

/-- A completed encoder pixel, field by field. -/
theorem encPixelDone_encComplete {s : State} (h : s.enc.state = .running) (c : Color)
    (rest : List Color) (out : List Byte) (run : BitVec 6) :
    EncPixelDone s (encComplete s c rest out run) c rest out run.toNat where
  bytes := rfl
  outLen := rfl
  pixIn := rfl
  last := rfl
  slot := cacheSlot_cacheUpdate_self _ _
  otherSlots := fun k hk => cacheSlot_cacheUpdate_ne _ _ k hk
  run := rfl
  pixIdx := rfl
  state := by simp [stateAfterPixel, h]
  npix := rfl
  start := rfl
  cfg := rfl
  rst := rfl
  turn := rfl
  dec := rfl
  decPorts := rfl

/-- Room for more transfers is room for fewer. -/
theorem byteRoom_mono {s : State} {m n : Nat} (hmn : m ≤ n) (h : s.byteRoom n = true) :
    s.byteRoom m = true := by
  simp only [State.byteRoom, hasRoom] at *
  split at h <;> simp_all
  omega

/-! ### Several moves of one unit -/

@[simp] theorem moves_zero (move : State → Host.Outcome State Fault Refusal) (s : State) :
    moves move 0 s = .next s := rfl

/-- A first move that gives a next state leaves the others to be made from it. -/
theorem moves_succ {move : State → Host.Outcome State Fault Refusal} {s t : State} (n : Nat)
    (h : move s = .next t) : moves move (n + 1) s = moves move n t := by
  simp [moves, h]

/-! ### One step of the block -/

/-- All a step can do: hardware reset, or one move of the unit whose turn it is. -/
theorem step_eq (s : State) :
    (s.rst = true ∧ step s = .next (hardwareReset s)) ∨
    (s.rst = false ∧ s.turn = .enc ∧ step s = encMove (passTurn s)) ∨
    (s.rst = false ∧ s.turn = .dec ∧ step s = decMove (passTurn s)) := by
  cases hr : s.rst <;> cases ht : s.turn <;> simp [step, stepBlock, hr, ht]

end Sys2Proof.Machine
end

