-- ==== Sys2Proof/Laws/Invariant.lean ====
section
/-! SUPPORT. Units that meet their invariant: what a `START` whose count fits leaves. -/

namespace Sys2Proof.Machine

/-- `ENC` meets its invariant right after a `START` whose count fits (R38, R140). -/
theorem encStart_enc_inv {s : State} {npix : Nat} (h : npix < 2 ^ s.cfg.npixW) :
    (encStart npix s).enc.Inv s.cfg := by
  constructor <;> simp [cacheOk_emptyCache, lastCached_emptyCache, startState, h] <;>
    first
    | (split <;> simp_all)
    | omega

/-- `DEC` meets its invariant right after a `START` whose count fits (R38, R170). -/
theorem decStart_dec_inv {s : State} {o : DecStart} (h : o.npix < 2 ^ s.cfg.npixW) :
    (decStart o s).dec.Inv s.cfg o.input := by
  constructor <;> simp [cacheOk_emptyCache, lastCached_emptyCache, startState, h] <;>
    first
    | (split <;> simp_all)
    | omega

end Sys2Proof.Machine
end

