-- ==== Sys2Proof/Laws/PerInstr.lean ====
section
/-! SUPPORT. The family `EncodedLength`: an operation's bytes are as many as its length (spec/30_encoding.md R71, R83). -/

namespace Sys2Proof.Laws.EncodedLength

/-- Whatever the operands, the bytes an operation encodes to are as many as its length, which is 1, 2 or 4. -/
def Statement (i : Instr) : Prop :=
  (∀ bs, encode i = some bs → bs.length = i.length) ∧ (i.length = 1 ∨ i.length = 2 ∨ i.length = 4)

theorem index (k : Nat) : Statement (.index k) := ⟨fun _ => encode_length, instr_length_cases _⟩
theorem diff (dr dg db : Int) : Statement (.diff dr dg db) := ⟨fun _ => encode_length, instr_length_cases _⟩
theorem luma (dg drg dbg : Int) : Statement (.luma dg drg dbg) := ⟨fun _ => encode_length, instr_length_cases _⟩
theorem run (n : Nat) : Statement (.run n) := ⟨fun _ => encode_length, instr_length_cases _⟩
theorem rgb (r g b : Byte) : Statement (.rgb r g b) := ⟨fun _ => encode_length, instr_length_cases _⟩
theorem rsvFF : Statement .rsvFF := ⟨fun _ => encode_length, instr_length_cases _⟩

end Sys2Proof.Laws.EncodedLength
end

