-- ==== Sys2Proof/Tests/Slice0.lean ====
section
/-! SUPPORT. The model's own tests: expected values are those of spec/95_test_vectors.md, of a rule's own example, or worked by hand from the encodings of spec/30_encoding.md. Then a witness for the hypotheses of every statement. -/

namespace Sys2Proof.Tests

open Sys2Proof.Machine

/-! ### Well-formedness: each check refuses an ill-formed term (vector V-B8, R84) -/

theorem test_wf_index : (Instr.index 64).wf = false ∧ (Instr.index 63).wf = true := by decide
theorem test_wf_diff_dr : (Instr.diff 2 0 0).wf = false ∧ (Instr.diff (-3) 0 0).wf = false := by decide
theorem test_wf_diff_dg : (Instr.diff 0 2 0).wf = false ∧ (Instr.diff 0 (-3) 0).wf = false := by decide
theorem test_wf_diff_db : (Instr.diff 0 0 2).wf = false ∧ (Instr.diff 0 0 (-3)).wf = false := by decide
theorem test_wf_luma_dg : (Instr.luma 32 0 0).wf = false ∧ (Instr.luma (-33) 0 0).wf = false := by decide
theorem test_wf_luma_drg : (Instr.luma 0 8 0).wf = false ∧ (Instr.luma 0 (-9) 0).wf = false := by decide
theorem test_wf_luma_dbg : (Instr.luma 0 0 8).wf = false ∧ (Instr.luma 0 0 (-9)).wf = false := by decide
theorem test_wf_run : (Instr.run 62).wf = false ∧ (Instr.run 61).wf = true := by decide
theorem test_cfg_wf : ({ Config.default with runCap := 0 } : Config).wf = false ∧
    ({ Config.default with runCap := 62 } : Config).wf = false ∧ Config.default.wf = true := by decide

/-! ### Decoding: words written out from R72 to R76 and R81, with vectors V-B9 to V-B17 -/

theorem test_decode_index : decode [0b00_111111#8, 7#8] = .ok (.index 63, [7#8]) := by rfl
theorem test_decode_diff : decode [0b01_01_10_11#8] = .ok (.diff (-1) 0 1, []) := by rfl
theorem test_decode_luma : decode [0b10_011110#8, 0b1100_1000#8] = .ok (.luma (-2) 4 0, []) := by rfl
theorem test_decode_run : decode [0b11_111101#8] = .ok (.run 61, []) ∧ decode [0xC0#8] = .ok (.run 0, []) := by
  exact ⟨rfl, rfl⟩
theorem test_decode_rgb : decode [0xFE#8, 0xFF#8, 0xFE#8, 0x00#8] = .ok (.rgb 255#8 254#8 0#8, []) := by rfl
theorem test_decode_rsvFF : decode [0xFF#8] = .ok (.rsvFF, []) := by rfl
/-- The `LUMA` extremes of vector V-B15. -/
theorem test_decode_luma_extremes : unpackLuma 0x80#8 0x00#8 = (-32, -8, -8) ∧
    unpackLuma 0xBF#8 0xFF#8 = (31, 7, 7) := by decide
theorem test_decode_truncated : decode [] = .error .truncated ∧ decode [0x9E#8] = .error .truncated ∧
    decode [0xFE#8, 1#8, 2#8] = .error .truncated := by exact ⟨rfl, rfl, rfl⟩
/-- The first byte of a table word is bits 7..0, the second bits 15..8. -/
theorem test_table_word : decodeTableWord 16 0xC89E = some (.luma (-2) 4 0) := by decide

/-! ### Packing: vectors V-B1 to V-B8 -/

theorem test_pack_index : packIndex 20 = some [0x14#8] ∧ packIndex 64 = none := by decide
theorem test_pack_diff : packDiff (-2) (-2) (-2) = some [0x40#8] ∧ packDiff 1 0 0 = some [0x7A#8] ∧
    packDiff 2 0 0 = none := by decide
theorem test_pack_luma : packLuma (-2) 4 0 = some [0x9E#8, 0xC8#8] ∧
    packLuma 31 7 7 = some [0xBF#8, 0xFF#8] ∧ packLuma 32 0 0 = none := by decide
theorem test_pack_run : packRun 60 = some [0xFC#8] ∧ packRun 62 = none := by decide
theorem test_pack_rgb : packRgb 10#8 20#8 30#8 = [0xFE#8, 0x0A#8, 0x14#8, 0x1E#8] := by decide

/-! ### Color cache: vectors V-C2 to V-C14 -/

/-- The color of the source's scenario. -/
def colorA : Color := { r := 10#8, g := 20#8, b := 30#8 }

theorem test_hash : Machine.hash colorA = 20 ∧ Machine.hash ({ r := 255#8, g := 255#8, b := 255#8 } : Color) = 49 ∧
    Machine.hash ({ r := 64#8, g := 0#8, b := 0#8 } : Color) = 0 := by decide
theorem test_packColor : packColor colorA = 0x1E140A#24 ∧ unpackColor 0x1E140A#24 = colorA := by decide
theorem test_lookup_collision :
    lookup (cacheUpdate cacheClear { r := 64#8, g := 0#8, b := 0#8 }) black = (false, 0) := by decide
/-- `DELTAS` at the wrap (R142). -/
theorem test_deltas_wrap : deltas black { r := 255#8, g := 255#8, b := 255#8 } = (1, 1, 1) ∧
    deltas { r := 128#8, g := 20#8, b := 30#8 } { r := 0#8, g := 20#8, b := 30#8 } = (-128, 0, 0) := by decide

/-! ### States for the tests -/

/-- `DEC` right after `DEC_START(npix)` with the input `bytes`, with its turn to move. -/
def decAt (cfg : Config) (npix : Nat) (bytes : List Byte) : State :=
  decStart { npix := npix, input := bytes } { State.reset with cfg := cfg, turn := .dec }

/-- `DEC` after it produced `colorA` from the first four of its bytes. -/
def decAfterA (cfg : Config) (npix : Nat) (bytes : List Byte) : State :=
  completePixel (decAt cfg npix ([0xFE#8, 10#8, 20#8, 30#8] ++ bytes)) 4 colorA 0#6

/-- `ENC` right after `ENC_START(npix)` with `pixels` offered, beside a `DEC` that was started as well. -/
def encAt (cfg : Config) (npix : Nat) (pixels : List Color) : State :=
  { encStart npix (decAt cfg 2 [0xC1#8]) with
    turn := .enc, encPorts := { start := none, pixIn := pixels, byteOut := [] } }

/-- The parameters with `FF_POLICY = FAULT`. -/
def faultCfg : Config := { Config.default with ffPolicy := .fault }

/-- The next state of an outcome, if there is one. -/
def after (o : Host.Outcome State Fault Refusal) : Option State :=
  match o with
  | .next t => some t
  | .fault _ => none
  | .refused _ => none

/-- What a test of `DEC` looks at: the color delivered last, `REM`, `IN_POS`, `STATE` and `ERR_CODE`. -/
def decView (t : State) : Option Color × Nat × Nat × UnitState × ErrCode :=
  (t.decPorts.pixOut.getLast?, t.dec.rem.toNat, t.dec.inPos, t.dec.state, t.dec.errCode)

/-- What a test of `ENC` looks at: the bytes emitted, `RUN`, `STATE`. -/
def encView (t : State) : List Byte × Nat × UnitState := (t.encPorts.byteOut, t.enc.run.toNat, t.enc.state)

/-! ### Operations -/

/-- R175's example: after `FE 0A 14 1E`, the byte `14` gives `(10,20,30)`. -/
theorem test_exec_index : (after (exec (.index 20) (decAfterA Config.default 3 [0x14#8]))).map decView =
    some (some colorA, 0, 5, .running, .none) := by decide
/-- Vector V-D3: an unwritten slot reads black. -/
theorem test_exec_index_cleared : (after (exec (.index 5) (decAt Config.default 2 [0x05#8, 0x05#8]))).map decView =
    some (some black, 0, 1, .running, .none) := by decide
/-- R177's example, and vector V-D10: the result wraps below 0. -/
theorem test_exec_diff : (after (exec (.diff (-1) 0 1) (decAfterA Config.default 3 []))).map decView =
    some (some { r := 9#8, g := 20#8, b := 31#8 }, 0, 5, .running, .none) := by decide
theorem test_exec_diff_wraps : (after (exec (.diff (-2) (-2) (-2)) (decAt Config.default 1 [0x40#8]))).map decView =
    some (some { r := 254#8, g := 254#8, b := 254#8 }, 0, 1, .done, .none) := by decide
/-- R178's example, and vector V-D14. -/
theorem test_exec_luma : (after (exec (.luma (-2) 4 0) (decAfterA Config.default 2 []))).map decView =
    some (some { r := 12#8, g := 18#8, b := 28#8 }, 0, 6, .done, .none) := by decide
theorem test_exec_luma_wraps : (after (exec (.luma (-32) (-8) (-8)) (decAt Config.default 1 []))).map decView =
    some (some { r := 216#8, g := 224#8, b := 216#8 }, 0, 2, .done, .none) := by decide
/-- R176's example, and vector V-D6: field 0 is one pixel. -/
theorem test_exec_run : (after (exec (.run 3) (decAfterA Config.default 9 []))).map decView =
    some (some colorA, 2, 5, .running, .none) := by decide
theorem test_exec_run_zero : (after (exec (.run 0) (decAt Config.default 2 []))).map decView =
    some (some black, 0, 1, .running, .none) := by decide
/-- Vector V-D2: payload bytes `FF` and `FE` are data. -/
theorem test_exec_rgb : (after (exec (.rgb 255#8 254#8 0#8) (decAt Config.default 1 []))).map decView =
    some (some { r := 255#8, g := 254#8, b := 0#8 }, 0, 4, .done, .none) := by decide
/-- Vectors V-D8 and V-X8. -/
theorem test_exec_rsvFF : (after (exec .rsvFF (decAt Config.default 63 []))).map decView =
    some (some black, 62, 1, .running, .none) := by decide
theorem test_exec_rsvFF_fault : (after (exec .rsvFF (decAt faultCfg 2 []))).map decView =
    some (none, 0, 0, .error, .reservedOp) := by decide

/-! ### The machine around them -/

/-- From reset, the operation of a table word is run by the very next step (`RGB 10, 20, 30`). -/
theorem test_first_step_after_reset :
    (after (step (State.reset.withFetchWord 32 0x1E140AFE))).map decView =
      some (some colorA, 0, 4, .done, .none) := by decide
/-- Vector V-X4: `LUMA` lacks its second byte, and nothing is consumed. -/
theorem test_truncated : (after (decMove (decAt Config.default 1 [0x9E#8]))).map decView =
    some (none, 0, 0, .error, .truncated) := by decide
/-- Vector L1-1, step by step: raw, then absorbed with the end flush. -/
theorem test_enc_raw : (after (encMove (encAt Config.default 2 [colorA, colorA]))).map encView =
    some ([0xFE#8, 0x0A#8, 0x14#8, 0x1E#8], 0, .running) := by decide
/-- Vector V-E1: a single black pixel is absorbed and flushed in one step. -/
theorem test_enc_absorb_and_flush : (after (encMove (encAt Config.default 1 [black]))).map encView =
    some ([0xC1#8], 0, .done) := by decide
/-- Vector V-E3, first step: `DIFF -1,-1,-1` by wraparound. -/
theorem test_enc_diff_wraps :
    (after (encMove (encAt Config.default 2 [{ r := 255#8, g := 255#8, b := 255#8 }]))).map encView =
      some ([0x55#8], 0, .running) := by decide
/-- Vector V-E6, first step: `LUMA 5,0,0`. -/
theorem test_enc_luma :
    (after (encMove (encAt Config.default 6 [{ r := 5#8, g := 5#8, b := 5#8 }]))).map encView =
      some ([0xA5#8, 0x88#8], 0, .running) := by decide
/-- Vector V-R2: after reset a pixel offered to `ENC` is not taken. -/
theorem test_enc_idle : after (encMove (hostAct (.offerPixel colorA) State.reset)) =
    some (hostAct (.offerPixel colorA) State.reset) := by decide

/-! ### Witnesses: states and operands that meet the hypotheses of each statement -/

/-- `ENC` after it took `pixels` pixels equal to `LAST = black`, all absorbed, with `rest` offered next. -/
def encWithRun (npix : Nat) (run : BitVec 6) (rest : List Color) : State :=
  encComplete (encAt Config.default npix []) black rest [] run

/-- Gray levels for the deltas of the encoder's cases. -/
def gray (v : Byte) : Color := { r := v, g := v, b := v }

theorem decAt_ready : DecReady (decAt Config.default 9 [0xC3#8]) := ⟨by decide, by decide, by decide⟩
theorem decAt_fault_ready : DecReady (decAt faultCfg 9 [0xFF#8]) := ⟨by decide, by decide, by decide⟩

theorem encAt_inv (npix : Nat) (h : npix < 2 ^ 64) (pixels : List Color) :
    (encAt Config.default npix pixels).Inv :=
  ⟨(by decide : Config.default.wf = true), encStart_enc_inv (s := decAt Config.default 2 [0xC1#8]) h,
    decStart_dec_inv (s := State.reset) (o := { npix := 2, input := [0xC1#8] }) (by decide),
    (by intro n hn; cases hn), (by intro o ho; cases ho)⟩

theorem encAt_ready (npix : Nat) (h : 0 < npix) (c : Color) (rest : List Color) :
    EncReady (encAt Config.default npix (c :: rest)) c rest :=
  ⟨(by show startState npix = .running; simp [startState]; omega), rfl, rfl, rfl⟩

theorem encWithRun_ready (run : BitVec 6) (c : Color) (rest : List Color) :
    EncReady (encWithRun 9 run (c :: rest)) c rest := ⟨rfl, rfl, rfl, rfl⟩

theorem witness_IndexYieldsSlotColor : (0x00#8 : Byte).toNat < 64 ∧ (0x3F#8 : Byte).toNat < 64 ∧
    DecReady (decAt Config.default 9 [0xC3#8]) ∧ 63 < 64 ∧
    cacheSlot (decAt Config.default 9 [0xC3#8]).dec.cache 63 = 0#24 :=
  ⟨by decide, by decide, decAt_ready, by decide, by decide⟩

theorem witness_DiffAddsDeltasModulo256 : 64 ≤ (0x40#8 : Byte).toNat ∧ (0x7F#8 : Byte).toNat < 128 ∧
    DecReady (decAt Config.default 9 [0xC3#8]) ∧ ((-2 : Int) ≤ -2 ∧ (-2 : Int) ≤ 1) ∧
    ((-2 : Int) ≤ 1 ∧ (1 : Int) ≤ 1) :=
  ⟨by decide, by decide, decAt_ready, by decide, by decide⟩

theorem witness_LumaAddsGreenAndOffsetsModulo256 : 128 ≤ (0x80#8 : Byte).toNat ∧ (0xBF#8 : Byte).toNat < 192 ∧
    DecReady (decAt Config.default 9 [0xC3#8]) ∧ ((-32 : Int) ≤ 31 ∧ (31 : Int) ≤ 31) ∧
    ((-8 : Int) ≤ 7 ∧ (7 : Int) ≤ 7) ∧ DecReady (decAt Config.default 1 [0x9E#8]) ∧
    (decAt Config.default 1 [0x9E#8]).decPorts.start = none ∧
    (decAt Config.default 1 [0x9E#8]).unread = [0x9E#8] :=
  ⟨by decide, by decide, decAt_ready, by decide, by decide, ⟨by decide, by decide, by decide⟩, rfl, rfl⟩

theorem witness_RgbYieldsPayloadVerbatim : DecReady (decAt Config.default 1 [0xFE#8, 1#8, 2#8]) ∧
    (decAt Config.default 1 [0xFE#8, 1#8, 2#8]).decPorts.start = none ∧
    (decAt Config.default 1 [0xFE#8, 1#8, 2#8]).unread = 0xFE#8 :: [1#8, 2#8] ∧
    ([1#8, 2#8] : List Byte).length < 3 :=
  ⟨⟨by decide, by decide, by decide⟩, rfl, rfl, by decide⟩

theorem witness_RunRepeatsLastAndLoadsRemainder : 192 ≤ (0xC0#8 : Byte).toNat ∧ (0xFD#8 : Byte).toNat < 254 ∧
    DecReady (decAt Config.default 9 [0xC3#8]) ∧ 0 ≤ 61 ∧ 61 ≤ 61 :=
  ⟨by decide, by decide, decAt_ready, by decide, by decide⟩

theorem witness_ReservedByteFollowsPolicy :
    (DecReady (decAt Config.default 9 [0xC3#8]) ∧ (decAt Config.default 9 [0xC3#8]).cfg.ffPolicy = .run63) ∧
    (DecReady (decAt faultCfg 9 [0xFF#8]) ∧ (decAt faultCfg 9 [0xFF#8]).cfg.ffPolicy = .fault) :=
  ⟨⟨decAt_ready, rfl⟩, ⟨decAt_fault_ready, rfl⟩⟩

theorem witness_OperationActsOnlyWhenRead :
    ((Instr.index 0).wf = true ∧ ¬ DecReady State.reset) ∧ (Instr.index 64).wf = false :=
  ⟨⟨by decide, fun h => absurd h.running (by decide)⟩, by decide⟩

theorem witness_OperationsKeepTheRest :
    ∃ t, exec (.run 3) (decAt Config.default 9 [0xC3#8]) = .next t := ⟨_, rfl⟩

theorem witness_StepRunsDecodedOperation :
    (decAt Config.default 9 [0xC3#8]).rst = false ∧ (decAt Config.default 9 [0xC3#8]).turn = .dec ∧
    (decAt Config.default 9 [0xC3#8]).decPorts.start = none ∧ DecReady (decAt Config.default 9 [0xC3#8]) ∧
    decode ((decAt Config.default 9 [0xC3#8]).decPorts.byteIn.drop
      (decAt Config.default 9 [0xC3#8]).dec.inPos) = .ok (.run 3, []) :=
  ⟨rfl, rfl, rfl, decAt_ready, rfl⟩

/-- `DEC` with two pixels of a run still owed. -/
def decPending : State := completePixel (decAt Config.default 9 [0xC3#8]) 1 black 2#6

theorem witness_PendingRunServesLast : decPending.dec.state = .running ∧ decPending.pixRoom = true ∧
    decPending.decPorts.start = none ∧ decPending.dec.rem ≠ 0#6 :=
  ⟨by decide, by decide, rfl, by decide⟩

theorem witness_RunByteAccountsForItsCount : DecReady (decAt Config.default 61 [0xFD#8]) ∧
    (decAt Config.default 61 [0xFD#8]).decPorts.start = none ∧
    (decAt Config.default 61 [0xFD#8]).cfg.pixOutCap = none ∧ 1 ≤ 61 ∧ 61 ≤ 61 ∧
    (decAt Config.default 61 [0xFD#8]).dec.pixIdx + 61 ≤ (decAt Config.default 61 [0xFD#8]).dec.npix ∧
    LastCached (decAt Config.default 61 [0xFD#8]).dec.cache (decAt Config.default 61 [0xFD#8]).dec.last ∧
    (decAt Config.default 61 [0xFD#8]).unread = BitVec.ofNat 8 (0xC0 + 61) :: [] :=
  ⟨⟨by decide, by decide, by decide⟩, rfl, rfl, by decide, by decide, by decide, lastCached_emptyCache, rfl⟩

theorem witness_EndOfStreamRaisesTruncated :
    (DecReady (decAt Config.default 1 []) ∧ (decAt Config.default 1 []).decPorts.start = none ∧
      (decAt Config.default 1 []).unread = []) ∧
    (DecReady (decAt Config.default 1 [0xBF#8]) ∧ 128 ≤ (0xBF#8 : Byte).toNat ∧ (0xBF#8 : Byte).toNat < 192 ∧
      (decAt Config.default 1 [0xBF#8]).unread = [0xBF#8]) ∧
    (DecReady (decAt Config.default 1 [0xFE#8]) ∧ (decAt Config.default 1 [0xFE#8]).unread = 0xFE#8 :: []) :=
  ⟨⟨⟨by decide, by decide, by decide⟩, rfl, rfl⟩, ⟨⟨by decide, by decide, by decide⟩, by decide, by decide, rfl⟩,
    ⟨by decide, by decide, by decide⟩, rfl⟩

theorem witness_ErrorEntryWritesOnlyStateAndCode :
    (∃ t, (decAt Config.default 1 []).dec.state = .running ∧ decMove (decAt Config.default 1 []) = .next t ∧
      t.dec.state = .error ∧ t.dec.errCode = .truncated) ∧
    ∃ t, (decAt faultCfg 9 [0xFF#8]).dec.state = .running ∧ decMove (decAt faultCfg 9 [0xFF#8]) = .next t ∧
      t.dec.state = .error ∧ t.dec.errCode = .reservedOp :=
  ⟨⟨_, by decide, rfl, rfl, rfl⟩, ⟨_, by decide, rfl, rfl, rfl⟩⟩

theorem witness_ReservedOpOnlyUnderFault : ∃ t, (decAt Config.default 1 []).dec.state = .running ∧
    decMove (decAt Config.default 1 []) = .next t ∧ t.dec.state = .error ∧
    (decAt Config.default 1 []).cfg.ffPolicy = .run63 := ⟨_, by decide, rfl, rfl, rfl⟩

/-- `DEC` in `ERROR` after a truncated stream. -/
def decError : State := raiseFormatError .truncated (decAt Config.default 1 [])

theorem witness_ErrorIsSticky :
    (∃ t, decError.dec.state = .error ∧ step decError = .next t ∧ t.dec = decError.dec) ∧
    (∃ t, step { decError with rst := true } = .next t ∧ t.dec = DecUnit.reset) ∧
    ∃ t, step (hostAct (.offerDecStart 1 [0x7A#8]) decError) = .next t ∧ t.dec.state = .running :=
  ⟨⟨_, rfl, rfl, rfl⟩, ⟨_, rfl, rfl⟩, ⟨_, rfl, rfl⟩⟩

theorem witness_EveryDecPixelStepCompletes :
    (∃ t, (decAt Config.default 9 [0x05#8]).dec.state = .running ∧
      (decAt Config.default 9 [0x05#8]).pixRoom = true ∧
      (decAt Config.default 9 [0x05#8]).decPorts.start = none ∧
      decMove (decAt Config.default 9 [0x05#8]) = .next t ∧ t.dec.state ≠ .error ∧
      decode (decAt Config.default 9 [0x05#8]).unread = .ok (.index 5, [])) ∧
    ∃ t, decMove decPending = .next t ∧ t.dec.state ≠ .error :=
  ⟨⟨_, by decide, by decide, rfl, rfl, by decide, rfl⟩, ⟨_, rfl, by decide⟩⟩

/-- `DEC` in `DONE` with a run left over and a byte unread (vector V-D18). -/
def decDone : State := completePixel (completePixel (decAt Config.default 2 [0xC5#8, 0x7A#8]) 1 black 4#6) 0 black 3#6

theorem witness_PassEndsAtPixelCount :
    (∃ t, (decAt Config.default 1 [0x7A#8]).dec.state = .running ∧
      (decAt Config.default 1 [0x7A#8]).pixRoom = true ∧
      (decAt Config.default 1 [0x7A#8]).decPorts.start = none ∧
      decMove (decAt Config.default 1 [0x7A#8]) = .next t ∧ t.dec.state ≠ .error ∧
      (decAt Config.default 1 [0x7A#8]).dec.pixIdx + 1 = (decAt Config.default 1 [0x7A#8]).dec.npix) ∧
    decDone.dec.state = .done ∧ decDone.decPorts.start = none :=
  ⟨⟨_, by decide, by decide, rfl, rfl, by decide, by decide⟩, by decide, rfl⟩

theorem witness_DecoderPassEnds : (encAt Config.default 3 [black]).Inv ∧
    (encAt Config.default 3 [black]).dec.state = .running ∧
    (encAt Config.default 3 [black]).decPorts.start = none ∧
    (encAt Config.default 3 [black]).cfg.pixOutCap = none :=
  ⟨encAt_inv 3 (by decide) _, by decide, rfl, rfl⟩

theorem witness_EncoderAbsorbsRunPixel : Config.default.wf = true ∧
    EncReady (encAt Config.default 1 [black]) (encAt Config.default 1 [black]).enc.last [] ∧
    (encAt Config.default 1 [black]).enc.run.toNat < 60 ∧
    (encAt Config.default 1 [black]).enc.pixIdx + 1 = (encAt Config.default 1 [black]).enc.npix ∧
    EncReady (encWithRun 9 59#6 [black]) (encWithRun 9 59#6 [black]).enc.last [] ∧
    (encWithRun 9 59#6 [black]).enc.run.toNat < 60 ∧
    (encWithRun 9 59#6 [black]).enc.pixIdx + 1 ≠ (encWithRun 9 59#6 [black]).enc.npix :=
  ⟨by decide, encAt_ready 1 (by decide) _ _, by decide, by decide, encWithRun_ready _ _ _, by decide, by decide⟩

theorem witness_EncoderFlushesRunBeforeOperation : EncReady (encWithRun 9 60#6 [gray 1#8]) (gray 1#8) [] ∧
    (encWithRun 9 60#6 [gray 1#8]).enc.run.toNat ≤ 61 ∧ NotAbsorbed (encWithRun 9 60#6 [gray 1#8]) (gray 1#8) :=
  ⟨encWithRun_ready _ _ _, by decide, fun h => absurd h.1 (by decide)⟩

theorem witness_EncoderEmitsIndexOnHit : EncReady (encWithRun 9 60#6 [black]) black [] ∧
    (encWithRun 9 60#6 [black]).enc.run.toNat ≤ 61 ∧ NotAbsorbed (encWithRun 9 60#6 [black]) black ∧
    ¬ Misses (encWithRun 9 60#6 [black]).enc.cache black :=
  ⟨encWithRun_ready _ _ _, by decide, fun h => absurd h.2 (by decide), fun h => h (by decide)⟩

theorem witness_EncoderEmitsDiff :
    (EncReady (encWithRun 9 1#6 [gray 254#8]) (gray 254#8) [] ∧ (encWithRun 9 1#6 [gray 254#8]).enc.run.toNat ≤ 61 ∧
      NotAbsorbed (encWithRun 9 1#6 [gray 254#8]) (gray 254#8) ∧
      Misses (encWithRun 9 1#6 [gray 254#8]).enc.cache (gray 254#8) ∧
      DiffDeltas (gray 254#8) (encWithRun 9 1#6 [gray 254#8]).enc.last (-2) (-2) (-2)) ∧
    DiffDeltas (gray 1#8) (encWithRun 9 1#6 [gray 1#8]).enc.last 1 1 1 :=
  ⟨⟨encWithRun_ready _ _ _, by decide, fun h => absurd h.1 (by decide), (by unfold Misses; decide),
    (by unfold DiffDeltas IsDelta; decide)⟩, (by unfold DiffDeltas IsDelta; decide)⟩

/-- From black, a gray level other than 254, 255, 0 and 1 fits no `DIFF`. -/
theorem gray_not_diff (v : Byte) (h : 2 ≤ v.toNat) (h' : v.toNat < 254) (dr dg db : Int) :
    ¬ DiffDeltas (gray v) black dr dg db := by
  rintro ⟨h1, -, -, h2, -, -⟩
  simp only [IsDelta, gray, black, BitVec.toNat_ofNat] at h1
  omega

theorem witness_EncoderEmitsLuma :
    (EncReady (encWithRun 9 0#6 [gray 31#8]) (gray 31#8) [] ∧ (encWithRun 9 0#6 [gray 31#8]).enc.run.toNat ≤ 61 ∧
      NotAbsorbed (encWithRun 9 0#6 [gray 31#8]) (gray 31#8) ∧
      Misses (encWithRun 9 0#6 [gray 31#8]).enc.cache (gray 31#8) ∧
      (∀ dr dg db : Int, ¬ DiffDeltas (gray 31#8) (encWithRun 9 0#6 [gray 31#8]).enc.last dr dg db) ∧
      LumaDeltas (gray 31#8) (encWithRun 9 0#6 [gray 31#8]).enc.last 31 31 31) ∧
    LumaDeltas { r := 216#8, g := 224#8, b := 216#8 } black (-40) (-32) (-40) ∧
    LumaDeltas { r := 38#8, g := 31#8, b := 38#8 } black 38 31 38 :=
  ⟨⟨encWithRun_ready _ _ _, by decide, fun h => absurd h.1 (by decide), (by unfold Misses; decide),
    gray_not_diff 31#8 (by decide) (by decide), (by unfold LumaDeltas IsDelta; decide)⟩,
    (by unfold LumaDeltas IsDelta; decide), (by unfold LumaDeltas IsDelta; decide)⟩

theorem witness_EncoderEmitsRawOtherwise : EncReady (encWithRun 9 0#6 [gray 32#8]) (gray 32#8) [] ∧
    (encWithRun 9 0#6 [gray 32#8]).enc.run.toNat ≤ 61 ∧
    NotAbsorbed (encWithRun 9 0#6 [gray 32#8]) (gray 32#8) ∧
    Misses (encWithRun 9 0#6 [gray 32#8]).enc.cache (gray 32#8) ∧
    (∀ dr dg db : Int, ¬ DiffDeltas (gray 32#8) (encWithRun 9 0#6 [gray 32#8]).enc.last dr dg db) ∧
    ∀ dr dg db : Int, ¬ LumaDeltas (gray 32#8) (encWithRun 9 0#6 [gray 32#8]).enc.last dr dg db := by
  refine ⟨encWithRun_ready _ _ _, by decide, fun h => absurd h.1 (by decide), (by unfold Misses; decide),
    gray_not_diff 32#8 (by decide) (by decide), ?_⟩
  rintro dr dg db ⟨-, h1, -, h2, -, -⟩
  simp only [IsDelta, gray, encWithRun, encComplete_enc_last, black, BitVec.toNat_ofNat] at h1
  omega

theorem witness_EncoderStepEmitsAtMostFiveBytes :
    (∃ t, (encAt Config.default 3 [colorA]).encPorts.start = none ∧ encMove (encAt Config.default 3 [colorA]) = .next t ∧
      t.enc.pixIdx ≠ (encAt Config.default 3 [colorA]).enc.pixIdx) ∧ (encAt Config.default 3 [colorA]).Inv :=
  ⟨⟨_, rfl, rfl, by decide⟩, encAt_inv 3 (by decide) _⟩

theorem witness_EncoderFlushesAtEndOfPass : (encAt Config.default 1 [black]).Inv ∧
    EncReady (encAt Config.default 1 [black]) black [] ∧
    (encAt Config.default 1 [black]).enc.pixIdx + 1 = (encAt Config.default 1 [black]).enc.npix :=
  ⟨encAt_inv 1 (by decide) _, encAt_ready 1 (by decide) _ _, by decide⟩

theorem witness_EncoderOutputIsLegal : (encAt Config.default 3 [colorA]).Inv ∧
    Instr.rgb 10#8 20#8 30#8 ∈ (encOps Config.default (encAt Config.default 3 [colorA]).enc colorA).1 :=
  ⟨encAt_inv 3 (by decide) _, by decide⟩

theorem witness_LongRunsAreCutAtTheCap :
    ((encAt Config.default 3 (List.replicate 2 black)).Inv ∧
      (encAt Config.default 3 (List.replicate 2 black)).enc.state = .running ∧
      (encAt Config.default 3 (List.replicate 2 black)).encPorts.start = none ∧
      (encAt Config.default 3 (List.replicate 2 black)).cfg.byteOutCap = none ∧
      (encAt Config.default 3 (List.replicate 2 black)).enc.run = 0#6 ∧
      (encAt Config.default 3 (List.replicate 2 black)).encPorts.pixIn =
        List.replicate 2 (encAt Config.default 3 (List.replicate 2 black)).enc.last ∧
      (encAt Config.default 3 (List.replicate 2 black)).enc.pixIdx + 2 < 3) ∧
    (encAt Config.default 61 (List.replicate 61 black)).Inv ∧
    (encAt Config.default 61 (List.replicate 61 black)).enc.pixIdx + 61 = 61 :=
  ⟨⟨encAt_inv 3 (by decide) _, by decide, rfl, rfl, rfl, rfl, by decide⟩, encAt_inv 61 (by decide) _, rfl⟩

theorem witness_FirstPixelOfAPass : State.reset.cfg.wf = true ∧ black = black ∧ colorA ≠ black := by decide

theorem witness_EncoderRaisesNoError : (encAt Config.default 3 [colorA]).Inv := encAt_inv 3 (by decide) _

/-- Parameters with a `byte_out` channel that holds three bytes. -/
def narrowCfg : Config := { Config.default with byteOutCap := some 3 }

theorem witness_UnitsStepExactlyWhenThereIsRoom : (encAt narrowCfg 2 [colorA]).enc.state = .running ∧
    (encAt narrowCfg 2 [colorA]).encPorts.start = none ∧
    (encAt narrowCfg 2 [colorA]).encPorts.pixIn = colorA :: [] ∧
    encodeAll (encOps (encAt narrowCfg 2 [colorA]).cfg (encAt narrowCfg 2 [colorA]).enc colorA).1 =
      some [0xFE#8, 10#8, 20#8, 30#8] ∧ (encAt narrowCfg 2 [colorA]).byteRoom 4 = false ∧
    encodeAll (encOps (encAt narrowCfg 2 [gray 31#8]).cfg (encAt narrowCfg 2 [gray 31#8]).enc (gray 31#8)).1 =
      some [0xBF#8, 0x88#8] ∧ (encAt narrowCfg 2 [gray 31#8]).byteRoom 2 = true ∧
    (encAt narrowCfg 2 [gray 31#8]).byteRoom 3 = true :=
  ⟨by decide, rfl, rfl, by decide, by decide, by decide, by decide, by decide⟩

/-- Parameters with a `pix_out` channel that holds one pixel. -/
def onePixelCfg : Config := { Config.default with pixOutCap := some 1 }

/-- `DEC` has room for its first pixel and not for its second, be the second step a pixel or an error. -/
theorem witness_UnitsStepExactlyWhenThereIsRoom_dec :
    (decAt onePixelCfg 2 [0xC1#8]).dec.state = .running ∧ (decAt onePixelCfg 2 [0xC1#8]).decPorts.start = none ∧
    (decAt onePixelCfg 2 [0xC1#8]).pixRoom = true ∧
    (decAfterA onePixelCfg 2 [0xC1#8]).dec.state = .running ∧
    (decAfterA onePixelCfg 2 [0xC1#8]).decPorts.start = none ∧
    (decAfterA onePixelCfg 2 [0xC1#8]).pixRoom = false ∧
    (decAfterA onePixelCfg 2 []).pixRoom = false ∧ (decAfterA onePixelCfg 2 []).unread = [] := by decide

theorem witness_EncStartReinitialises :
    (hostAct (.offerEncStart 0) State.reset).encPorts.start = some 0 ∧ 0 < 2 ^ State.reset.cfg.npixW ∧
    (hostAct (.offerEncStart (2 ^ 64 - 1)) State.reset).encPorts.start = some (2 ^ 64 - 1) := by decide

theorem witness_DecStartReinitialises :
    (hostAct (.offerDecStart 0 [0x7A#8]) decError).decPorts.start = some { npix := 0, input := [0x7A#8] } ∧
    0 < 2 ^ decError.cfg.npixW ∧
    (hostAct (.offerDecStart 1 [0x7A#8]) decError).decPorts.start = some { npix := 1, input := [0x7A#8] } := by
  decide

theorem witness_HardwareResetValues : (hostAct .assertReset decError).rst = true := rfl

theorem witness_ResetThenStartThenPixel : (hostAct .assertReset decError).rst = true ∧
    (State.reset.rst = false ∧ State.reset.turn = .enc) ∧ (decError.rst = false ∧ decError.turn = .dec) ∧
    ((hostAct (.offerEncStart 2) State.reset).encPorts.start = some 2 ∧ countFits State.reset.cfg 2 = true) ∧
    (hostAct (.offerDecStart 2 []) State.reset).decPorts.start = some { npix := 2, input := [] } := by decide

theorem witness_NoPixelStepOutsideRunning :
    ((encAt Config.default 2 []).enc.state = .running ∧ (encAt Config.default 2 []).encPorts.start = none ∧
      (encAt Config.default 2 []).encPorts.pixIn = []) ∧
    (State.reset.enc.state ≠ .running ∧ State.reset.encPorts.start = none) ∧
    decError.dec.state ≠ .running ∧ decError.decPorts.start = none := by decide

theorem witness_UnitStateTransitions :
    (encAt Config.default 1 [black]).Inv ∧ (∃ t, step (encAt Config.default 1 [black]) = .next t ∧ t.enc.state = .done) ∧
    ∃ t, step (encAt Config.default 2 [black]) = .next t ∧ t.enc.state = .running :=
  ⟨encAt_inv 1 (by decide) _, ⟨_, rfl, by decide⟩, ⟨_, rfl, by decide⟩⟩

theorem witness_StatusCodesAndHostReadOnly : (encAt Config.default 3 []).Inv := encAt_inv 3 (by decide) _

theorem witness_HashIgnoresAdderWidth : 6 ≤ 6 ∧ 6 ≤ 12 := by decide

theorem witness_UpdateWritesOneSlot : 21 ≠ Machine.hash colorA ∧
    cacheSlot (cacheUpdate cacheClear colorA) (Machine.hash colorA) = packColor colorA := by decide

theorem witness_CollisionIsAMiss : Machine.hash black = Machine.hash ({ r := 64#8, g := 0#8, b := 0#8 } : Color) ∧
    black ≠ { r := 64#8, g := 0#8, b := 0#8 } ∧ (lookup cacheClear black).1 = true := by decide

theorem witness_ClearedCacheHitsOnlyBlack : (lookup cacheClear black).1 = true ∧
    (lookup (cacheUpdate cacheClear colorA) black).1 = true ∧
    (lookup (cacheUpdate cacheClear { r := 64#8, g := 0#8, b := 0#8 }) black).1 = false := by decide

theorem witness_StepStatements : (∃ t, step (encAt Config.default 3 [colorA]) = .next t) ∧
    (∃ t, step (decAt Config.default 2 [0x7A#8]) = .next t) ∧ ∃ t, step (hostAct .assertReset decError) = .next t :=
  ⟨⟨_, rfl⟩, ⟨_, rfl⟩, ⟨_, rfl⟩⟩

theorem witness_CacheWrittenOnlyByClearAndUpdate : ∃ t, step (encAt Config.default 3 [colorA]) = .next t := ⟨_, rfl⟩

theorem witness_ChannelsAreFirstInFirstOut : ∃ t, step (encAt Config.default 3 [colorA]) = .next t ∧
    t.encPorts.byteOut = [0xFE#8, 10#8, 20#8, 30#8] ∧ t.encPorts.pixIn = [] := ⟨_, rfl, by decide, rfl⟩

/-- The host's side: channels with two transfers, and empty ones. -/
theorem witness_ChannelsAreFirstInFirstOut_host :
    (encComplete (encAt Config.default 3 []) colorA [] [1#8, 2#8] 0#6).encPorts.byteOut = 1#8 :: [2#8] ∧
    decDone.decPorts.pixOut = black :: [black] ∧
    State.reset.encPorts.byteOut = [] ∧ State.reset.decPorts.pixOut = [] ∧
    HostAction.takePixel ≠ .takeByte ∧ HostAction.takeByte ≠ .takePixel ∧
    ∀ c, HostAction.takeByte ≠ .offerPixel c :=
  ⟨by decide, by decide, rfl, rfl, by decide, by decide, fun _ h => nomatch h⟩

theorem witness_CountsAndInputFixedDuringAPass :
    ∃ t, step (hostAct (.offerDecStart 1 [0x7A#8]) decError) = .next t ∧ t.decPorts.byteIn = [0x7A#8] :=
  ⟨_, rfl, rfl⟩

theorem witness_DecodeInvertsEncode : (Instr.luma (-32) (-8) (-8)).wf = true ∧ (Instr.luma 31 7 7).wf = true ∧
    (Instr.diff (-2) (-2) (-2)).wf = true ∧ (Instr.diff 1 1 1).wf = true ∧ (Instr.index 63).wf = true ∧
    (Instr.run 0).wf = true ∧ (Instr.run 61).wf = true := by decide

theorem witness_EncodeInvertsDecode : decode [0xFD#8, 0xFF#8] = .ok (.run 61, [0xFF#8]) ∧
    encode (.run 61) = some [0xFD#8] ∧ [0xFD#8, 0xFF#8] = [0xFD#8] ++ [0xFF#8] := ⟨rfl, rfl, rfl⟩

theorem witness_PackersRefuseOutOfRange : (encAt Config.default 3 [colorA]).Inv := encAt_inv 3 (by decide) _

theorem witness_StepKeepsInvariant : (encAt Config.default 3 [colorA]).Inv ∧
    ∃ t, step (encAt Config.default 3 [colorA]) = .next t := ⟨encAt_inv 3 (by decide) _, _, rfl⟩

theorem witness_InvariantStatesNeverStop : (encAt Config.default 3 [colorA]).Inv := encAt_inv 3 (by decide) _

theorem witness_HostActionsKeepInvariant : (encAt Config.default 3 [colorA]).Inv := encAt_inv 3 (by decide) _

/-- A turn of each unit with work to do. -/
theorem witness_UnitsShareNothing_turns :
    ((encAt Config.default 3 [colorA]).rst = false ∧ (encAt Config.default 3 [colorA]).turn = .enc ∧
      ∃ t, step (encAt Config.default 3 [colorA]) = .next t ∧ t.enc ≠ (encAt Config.default 3 [colorA]).enc) ∧
    (decAt Config.default 2 [0x7A#8]).rst = false ∧ (decAt Config.default 2 [0x7A#8]).turn = .dec ∧
    ∃ t, step (decAt Config.default 2 [0x7A#8]) = .next t ∧ t.dec ≠ (decAt Config.default 2 [0x7A#8]).dec :=
  ⟨⟨rfl, rfl, _, rfl, by decide⟩, rfl, rfl, _, rfl, by decide⟩

/-- Two states that agree on `DEC` and differ in `ENC`, and two that agree on `ENC` and differ in `DEC`. -/
theorem witness_UnitsShareNothing :
    ((encAt Config.default 3 [colorA]).dec = (encAt Config.default 1 []).dec ∧
      (encAt Config.default 3 [colorA]).decPorts = (encAt Config.default 1 []).decPorts ∧
      (encAt Config.default 3 [colorA]).enc ≠ (encAt Config.default 1 []).enc ∧
      (∃ t, step (encAt Config.default 3 [colorA]) = .next t) ∧ ∃ t, step (encAt Config.default 1 []) = .next t) ∧
    (decError.enc = (decAt Config.default 1 []).enc ∧ decError.encPorts = (decAt Config.default 1 []).encPorts ∧
      decError.dec ≠ (decAt Config.default 1 []).dec ∧
      (∃ t, step decError = .next t) ∧ ∃ t, step (decAt Config.default 1 []) = .next t) :=
  ⟨⟨rfl, rfl, by decide, ⟨_, rfl⟩, ⟨_, rfl⟩⟩, ⟨rfl, rfl, by decide, ⟨_, rfl⟩, ⟨_, rfl⟩⟩⟩

theorem witness_UnitMovesCommute : ∃ t u, encMove (encAt Config.default 3 [colorA]) = .next t ∧
    decMove t = .next u ∧ u.decPorts.pixOut = [black] ∧ u.encPorts.byteOut.length = 4 :=
  ⟨_, _, rfl, rfl, by decide, by decide⟩

theorem witness_DecodeInvertsEncodePass : State.reset.cfg.wf = true ∧ State.reset.cfg.byteOutCap = none ∧
    State.reset.cfg.pixOutCap = none ∧ countFits State.reset.cfg [colorA, colorA].length = true := by decide

theorem witness_UnitsStayInStep : State.reset.cfg.wf = true ∧ State.reset.cfg.byteOutCap = none ∧
    State.reset.cfg.pixOutCap = none ∧ countFits State.reset.cfg [colorA].length = true ∧ 1 ≤ [colorA].length ∧
    ∃ t, moves encMove ([colorA].length + 1)
      { State.reset with encPorts := { start := some [colorA].length, pixIn := [colorA], byteOut := [] } } = .next t :=
  ⟨by decide, rfl, rfl, by decide, by decide, _, rfl⟩

end Sys2Proof.Tests
end

section
/-! SUPPORT. What a move of one unit leaves alone and what it depends on (R20): the frame of each move as one equation, and each move unchanged when the other unit is replaced. -/

namespace Sys2Proof.Machine

/-! ### One unit and its ports replaced -/

/-- `s` with `ENC` and its ports replaced. -/
def State.withEnc (s : State) (e : EncUnit) (p : EncPorts) : State := { s with enc := e, encPorts := p }

/-- `s` with `DEC` and its ports replaced. -/
def State.withDec (s : State) (d : DecUnit) (p : DecPorts) : State := { s with dec := d, decPorts := p }

section
variable (s : State) (e : EncUnit) (d : DecUnit) (pe : EncPorts) (pd : DecPorts)

@[simp] theorem withEnc_cfg : (s.withEnc e pe).cfg = s.cfg := rfl
@[simp] theorem withEnc_rst : (s.withEnc e pe).rst = s.rst := rfl
@[simp] theorem withEnc_turn : (s.withEnc e pe).turn = s.turn := rfl
@[simp] theorem withEnc_enc : (s.withEnc e pe).enc = e := rfl
@[simp] theorem withEnc_encPorts : (s.withEnc e pe).encPorts = pe := rfl
@[simp] theorem withEnc_dec : (s.withEnc e pe).dec = s.dec := rfl
@[simp] theorem withEnc_decPorts : (s.withEnc e pe).decPorts = s.decPorts := rfl
@[simp] theorem withEnc_unread : (s.withEnc e pe).unread = s.unread := rfl
@[simp] theorem withEnc_pixRoom : (s.withEnc e pe).pixRoom = s.pixRoom := rfl
@[simp] theorem withEnc_decEnabled : (s.withEnc e pe).decEnabled = s.decEnabled := rfl
@[simp] theorem withEnc_decReads : (s.withEnc e pe).decReads = s.decReads := rfl

theorem decReady_withEnc : DecReady (s.withEnc e pe) ↔ DecReady s := by simp [← decReads_iff]

@[simp] theorem withDec_cfg : (s.withDec d pd).cfg = s.cfg := rfl
@[simp] theorem withDec_rst : (s.withDec d pd).rst = s.rst := rfl
@[simp] theorem withDec_turn : (s.withDec d pd).turn = s.turn := rfl
@[simp] theorem withDec_enc : (s.withDec d pd).enc = s.enc := rfl
@[simp] theorem withDec_encPorts : (s.withDec d pd).encPorts = s.encPorts := rfl
@[simp] theorem withDec_dec : (s.withDec d pd).dec = d := rfl
@[simp] theorem withDec_decPorts : (s.withDec d pd).decPorts = pd := rfl
@[simp] theorem withDec_byteRoom (n : Nat) : (s.withDec d pd).byteRoom n = s.byteRoom n := rfl

@[simp] theorem encComplete_withDec (c : Color) (rest : List Color) (out : List Byte) (run : BitVec 6) :
    encComplete (s.withDec d pd) c rest out run = (encComplete s c rest out run).withDec d pd := rfl

@[simp] theorem passTurn_withEnc : passTurn (s.withEnc e pe) = (passTurn s).withEnc e pe := rfl
@[simp] theorem passTurn_withDec : passTurn (s.withDec d pd) = (passTurn s).withDec d pd := rfl

end

/-- Two states that differ in `ENC` and its ports only. -/
theorem eq_withEnc {s₁ s₂ : State} (hcfg : s₁.cfg = s₂.cfg) (hrst : s₁.rst = s₂.rst)
    (hturn : s₁.turn = s₂.turn) (hdec : s₁.dec = s₂.dec) (hports : s₁.decPorts = s₂.decPorts) :
    s₂ = s₁.withEnc s₂.enc s₂.encPorts := by
  cases s₂
  simp_all [State.withEnc]

/-- Two states that differ in `DEC` and its ports only. -/
theorem eq_withDec {s₁ s₂ : State} (hcfg : s₁.cfg = s₂.cfg) (hrst : s₁.rst = s₂.rst)
    (hturn : s₁.turn = s₂.turn) (henc : s₁.enc = s₂.enc) (hports : s₁.encPorts = s₂.encPorts) :
    s₂ = s₁.withDec s₂.dec s₂.decPorts := by
  cases s₂
  simp_all [State.withDec]

/-! ### What a move writes -/

/-- A move of `DEC` by the update it makes: a `START`, nothing, a completed pixel, or an error entry. -/
theorem decMove_update {s t : State} (h : decMove s = .next t) :
    (∃ o, s.decPorts.start = some o ∧ t = decStart o s) ∨ t = s ∨
    (s.dec.state = .running ∧ ∃ len c rem, t = completePixel s len c rem) ∨
    (s.dec.state = .running ∧ ∃ code, t = raiseFormatError code s) := by
  obtain ⟨o, ho, -, ht⟩ | ⟨-, -, ht⟩ | ⟨-, he, -, ht⟩ | ⟨-, hr, -, ht⟩ | ⟨-, hr, i, -, -, hx⟩ :=
    decMove_next h
  · exact .inl ⟨o, ho, ht⟩
  · exact .inr (.inl ht)
  · exact .inr (.inr (.inl ⟨((decEnabled_iff s).mp he).1, _, _, _, ht⟩))
  · exact .inr (.inr (.inr ⟨hr.running, _, ht⟩))
  · obtain ⟨hnr, -⟩ | ⟨-, ht⟩ | ⟨-, -, -, ht⟩ := exec_next hx
    · exact absurd hr hnr
    · exact .inr (.inr (.inl ⟨hr.running, _, _, _, ht⟩))
    · exact .inr (.inr (.inr ⟨hr.running, _, ht⟩))

/-- The frame of a move of `DEC` (R20): it writes `DEC` and its ports only. -/
theorem decMove_frame {s t : State} (h : decMove s = .next t) : t = s.withDec t.dec t.decPorts := by
  obtain ⟨o, -, rfl⟩ | rfl | ⟨-, len, c, rem, rfl⟩ | ⟨-, code, rfl⟩ := decMove_update h <;> rfl

/-- The frame of a move of `ENC` (R20): it writes `ENC` and its ports only. -/
theorem encMove_frame {s t : State} (h : encMove s = .next t) : t = s.withEnc t.enc t.encPorts := by
  obtain ⟨n, -, -, rfl⟩ | ⟨-, rfl⟩ | ⟨-, -, c, rest, out, -, -, -, rfl⟩ := encMove_next h <;> rfl

/-- A move of `ENC` writes nothing of `DEC`. -/
theorem encMove_keeps_dec {s t : State} (h : encMove s = .next t) :
    t.dec = s.dec ∧ t.decPorts = s.decPorts :=
  ⟨(congrArg State.dec (encMove_frame h) :), (congrArg State.decPorts (encMove_frame h) :)⟩

/-- A move of `DEC` writes nothing of `ENC`. -/
theorem decMove_keeps_enc {s t : State} (h : decMove s = .next t) :
    t.enc = s.enc ∧ t.encPorts = s.encPorts :=
  ⟨(congrArg State.enc (decMove_frame h) :), (congrArg State.encPorts (decMove_frame h) :)⟩

/-! ### What a move does, forwards -/

/-- A meaning in a state that cannot read its operation changes nothing. -/
theorem whenRead_not_ready {i : Instr} {s after : State} (hi : i.wf = true) (h : ¬ DecReady s) :
    whenRead i s after = .next s := by
  simp [whenRead, hi, mt (decReads_iff s).mp h]

/-- A move of `DEC` takes an offered `START` whose count fits (R170, R210). -/
theorem decMove_start {s : State} {o : DecStart} (ho : s.decPorts.start = some o)
    (hf : countFits s.cfg o.npix = true) : decMove s = .next (decStart o s) := by
  simp [decMove, ho, hf]

/-- A move of `DEC` with no `START` offered and no pixel step enabled waits (R213, R240). -/
theorem decMove_waits {s : State} (hs : s.decPorts.start = none) (he : s.decEnabled = false) :
    decMove s = .next s := by
  simp [decMove, hs, he]

/-- A move of `ENC` takes an offered `START` whose count fits (R140, R210). -/
theorem encMove_start {s : State} {n : Nat} (hn : s.encPorts.start = some n)
    (hf : countFits s.cfg n = true) : encMove s = .next (encStart n s) := by
  simp [encMove, hn, hf]

/-- A step with `rst` asserted is hardware reset (R210, R230). -/
theorem step_reset {s : State} (hr : s.rst = true) : step s = .next (hardwareReset s) := by
  simp [step, stepBlock, hr]

/-- A step in `ENC`'s turn is a move of `ENC`. -/
theorem step_enc {s : State} (hr : s.rst = false) (ht : s.turn = .enc) :
    step s = encMove (passTurn s) := by
  simp [step, stepBlock, hr, ht]

/-- A step in `DEC`'s turn is a move of `DEC`. -/
theorem step_dec {s : State} (hr : s.rst = false) (ht : s.turn = .dec) :
    step s = decMove (passTurn s) := by
  simp [step, stepBlock, hr, ht]

/-! ### What a move reads -/

theorem opAfter_withEnc (i : Instr) (s : State) (e : EncUnit) (p : EncPorts) :
    opAfter i (s.withEnc e p) = (opAfter i s).withEnc e p := by
  unfold opAfter
  rw [withEnc_cfg]
  split
  · rfl
  · cases i <;> rfl

/-- `exec` does not read `ENC`. -/
theorem exec_withEnc {i : Instr} {s t : State} (e : EncUnit) (p : EncPorts) (h : exec i s = .next t) :
    exec i (s.withEnc e p) = .next (t.withEnc e p) := by
  rw [exec_eq] at h ⊢
  obtain ⟨hwf, ⟨hr, rfl⟩ | ⟨hr, rfl⟩⟩ := whenRead_next h
  · rw [whenRead_ready hwf ((decReady_withEnc ..).mpr hr), opAfter_withEnc]
  · exact whenRead_not_ready hwf (mt (decReady_withEnc ..).mp hr)

/-- A move of `DEC` does not read `ENC` (R20): with `ENC` replaced it is the same move. -/
theorem decMove_withEnc {s t : State} (e : EncUnit) (p : EncPorts) (h : decMove s = .next t) :
    decMove (s.withEnc e p) = .next (t.withEnc e p) := by
  obtain ⟨o, ho, hf, rfl⟩ | ⟨hs, he, rfl⟩ | ⟨hs, he, hrem, rfl⟩ | ⟨hs, hr, hd, rfl⟩ |
    ⟨hs, hr, i, rest, hd, hx⟩ := decMove_next h
  · exact decMove_start ho hf
  · exact decMove_waits hs he
  · have ⟨hrun, hroom⟩ := (decEnabled_iff s).mp he
    exact decMove_pending hs hrun hroom hrem
  · exact decMove_truncated hs ((decReady_withEnc ..).mpr hr) hd
  · have hread : decMove (s.withEnc e p) = exec i (s.withEnc e p) :=
      decMove_reads hs ((decReady_withEnc ..).mpr hr) hd
    exact hread.trans (exec_withEnc e p hx)

theorem encPixel_withDec {c : Color} {rest : List Color} {s t : State} (d : DecUnit) (p : DecPorts)
    (h : encPixel c rest s = .next t) : encPixel c rest (s.withDec d p) = .next (t.withDec d p) := by
  unfold encPixel at h
  split at h
  next hrun =>
    split at h
    next out ho =>
      split at h
      next hroom =>
        cases h
        simp [encPixel, hrun, ho, hroom]
      next hroom =>
        cases h
        simp [encPixel, hrun, ho, hroom]
    next => cases h
  next hrun =>
    cases h
    simp [encPixel, hrun]

/-- A move of `ENC` does not read `DEC` (R20): with `DEC` replaced it is the same move. -/
theorem encMove_withDec {s t : State} (d : DecUnit) (p : DecPorts) (h : encMove s = .next t) :
    encMove (s.withDec d p) = .next (t.withDec d p) := by
  unfold encMove at h
  split at h
  next n hn =>
    split at h
    next hf =>
      cases h
      exact encMove_start hn hf
    next => cases h
  next hn =>
    split at h
    next hp =>
      cases h
      simp [encMove, hn, hp]
    next c rest hp =>
      simpa [encMove, hn, hp] using encPixel_withDec d p h

end Sys2Proof.Machine
end

section
/-! PROOFS. The family of spec/10_state.md: how `STATE` moves (R31), what the units share (R20), what the host can write (R36). -/

namespace Sys2Proof.Machine

/-! ### The rows of the state table (R31) -/

/-- `START(npix)` leaves `RUNNING` or `DONE` by its count. -/
theorem startState_cases (npix : Nat) :
    (0 < npix ∧ startState npix = .running) ∨ (npix = 0 ∧ startState npix = .done) := by
  obtain rfl | h := npix.eq_zero_or_pos
  · exact .inr ⟨rfl, rfl⟩
  · exact .inl ⟨h, if_neg h.ne'⟩

/-- A pixel step of an unfinished pass leaves `RUNNING`, or `DONE` at `NPIX`. -/
theorem stateAfterPixel_cases {pixIdx npix : Nat} (h : pixIdx < npix) :
    (pixIdx + 1 < npix ∧ stateAfterPixel pixIdx npix .running = .running) ∨
    (pixIdx + 1 = npix ∧ stateAfterPixel pixIdx npix .running = .done) := by
  obtain hlt | heq := Nat.lt_or_eq_of_le (Nat.succ_le_of_lt h)
  · exact .inl ⟨hlt, if_neg hlt.ne⟩
  · exact .inr ⟨heq, if_pos heq⟩

/-- The rows of the state table that a move of `ENC` can take from `e` to `e'`, with `start` at its port. -/
def EncUnit.Transition (start : Option Nat) (e e' : EncUnit) : Prop :=
  e' = e ∨
  (∃ n, start = some n ∧ ((0 < n ∧ e'.state = .running) ∨ (n = 0 ∧ e'.state = .done))) ∨
  (e.state = .running ∧ e'.pixIdx = e.pixIdx + 1 ∧
    ((e.pixIdx + 1 < e.npix ∧ e'.state = .running) ∨ (e.pixIdx + 1 = e.npix ∧ e'.state = .done)))

/-- The rows of the state table that a move of `DEC` can take from `d` to `d'`, with `start` at its port. -/
def DecUnit.Transition (start : Option DecStart) (d d' : DecUnit) : Prop :=
  d' = d ∨
  (∃ o, start = some o ∧
    ((0 < o.npix ∧ d'.state = .running) ∨ (o.npix = 0 ∧ d'.state = .done))) ∨
  (d.state = .running ∧ d'.pixIdx = d.pixIdx + 1 ∧
    ((d.pixIdx + 1 < d.npix ∧ d'.state = .running) ∨ (d.pixIdx + 1 = d.npix ∧ d'.state = .done))) ∨
  (d.state = .running ∧ d'.pixIdx = d.pixIdx ∧ d'.state = .error)

theorem encMove_transition {s t : State} (hunf : s.enc.state = .running → s.enc.pixIdx < s.enc.npix)
    (h : encMove s = .next t) : s.enc.Transition s.encPorts.start t.enc := by
  obtain ⟨n, hn, -, rfl⟩ | ⟨-, rfl⟩ | ⟨-, hrun, c, rest, out, -, -, -, rfl⟩ := encMove_next h
  · exact .inr (.inl ⟨n, hn, startState_cases n⟩)
  · exact .inl rfl
  · refine .inr (.inr ⟨hrun, rfl, ?_⟩)
    rw [encComplete_enc_state, hrun]
    exact stateAfterPixel_cases (hunf hrun)

theorem decMove_transition {s t : State} (hunf : s.dec.state = .running → s.dec.pixIdx < s.dec.npix)
    (h : decMove s = .next t) : s.dec.Transition s.decPorts.start t.dec := by
  obtain ⟨o, ho, rfl⟩ | rfl | ⟨hrun, len, c, rem, rfl⟩ | ⟨hrun, code, rfl⟩ := decMove_update h
  · exact .inr (.inl ⟨o, ho, startState_cases o.npix⟩)
  · exact .inl rfl
  · refine .inr (.inr (.inl ⟨hrun, rfl, ?_⟩))
    rw [completePixel_dec_state, hrun]
    exact stateAfterPixel_cases (hunf hrun)
  · exact .inr (.inr (.inr ⟨hrun, rfl, rfl⟩))

/-- Settles O37: hardware reset, or the unit whose turn it is moves by a row of its table and the other stays. -/
theorem unitStateTransitions : Obligations.UnitStateTransitions := by
  intro s t hinv h
  obtain ⟨hr, hs⟩ | ⟨hr, -, hs⟩ | ⟨hr, -, hs⟩ := step_eq s <;> rw [hs] at h
  · cases h
    exact .inl ⟨hr, rfl, rfl⟩
  · exact .inr ⟨hr, encMove_transition (s := passTurn s) hinv.enc.runningUnfinished h,
      .inl (encMove_keeps_dec h).1⟩
  · exact .inr ⟨hr, .inl (decMove_keeps_enc h).1,
      decMove_transition (s := passTurn s) hinv.dec.runningUnfinished h⟩

/-! ### The units share nothing (R20) -/

/-- A step in `ENC`'s turn writes nothing of `DEC`. -/
theorem step_enc_keeps_dec {s t : State} (hr : s.rst = false) (ht : s.turn = .enc)
    (h : step s = .next t) : t.dec = s.dec ∧ t.decPorts = s.decPorts :=
  encMove_keeps_dec (s := passTurn s) ((step_enc hr ht).symm.trans h)

/-- A step in `DEC`'s turn writes nothing of `ENC`. -/
theorem step_dec_keeps_enc {s t : State} (hr : s.rst = false) (ht : s.turn = .dec)
    (h : step s = .next t) : t.enc = s.enc ∧ t.encPorts = s.encPorts :=
  decMove_keeps_enc (s := passTurn s) ((step_dec hr ht).symm.trans h)

/-- What a step makes of `DEC` does not depend on `ENC`. -/
theorem step_withEnc_dec {s t u : State} {e : EncUnit} {p : EncPorts} (ht : step s = .next t)
    (hu : step (s.withEnc e p) = .next u) : t.dec = u.dec ∧ t.decPorts = u.decPorts := by
  obtain ⟨hr, hs⟩ | ⟨hr, hturn, -⟩ | ⟨hr, hturn, hs⟩ := step_eq s
  · cases hs.symm.trans ht
    cases (step_reset (s := s.withEnc e p) hr).symm.trans hu
    exact ⟨rfl, rfl⟩
  · have ⟨hd, hp⟩ := step_enc_keeps_dec hr hturn ht
    have ⟨hd', hp'⟩ := step_enc_keeps_dec (s := s.withEnc e p) hr hturn hu
    exact ⟨hd.trans hd'.symm, hp.trans hp'.symm⟩
  · have hs' : step (s.withEnc e p) = .next (t.withEnc e p) :=
      (step_dec (s := s.withEnc e p) hr hturn).trans (decMove_withEnc e p (hs.symm.trans ht))
    cases hs'.symm.trans hu
    exact ⟨rfl, rfl⟩

/-- What a step makes of `ENC` does not depend on `DEC`. -/
theorem step_withDec_enc {s t u : State} {d : DecUnit} {p : DecPorts} (ht : step s = .next t)
    (hu : step (s.withDec d p) = .next u) : t.enc = u.enc ∧ t.encPorts = u.encPorts := by
  obtain ⟨hr, hs⟩ | ⟨hr, hturn, hs⟩ | ⟨hr, hturn, -⟩ := step_eq s
  · cases hs.symm.trans ht
    cases (step_reset (s := s.withDec d p) hr).symm.trans hu
    exact ⟨rfl, rfl⟩
  · have hs' : step (s.withDec d p) = .next (t.withDec d p) :=
      (step_enc (s := s.withDec d p) hr hturn).trans (encMove_withDec d p (hs.symm.trans ht))
    cases hs'.symm.trans hu
    exact ⟨rfl, rfl⟩
  · have ⟨he, hp⟩ := step_dec_keeps_enc hr hturn ht
    have ⟨he', hp'⟩ := step_dec_keeps_enc (s := s.withDec d p) hr hturn hu
    exact ⟨he.trans he'.symm, hp.trans hp'.symm⟩

/-- Settles O54: the writes by the frame of each move, the reads by replacing the other unit. -/
theorem unitsShareNothing : Obligations.UnitsShareNothing := by
  refine ⟨fun _ _ => step_enc_keeps_dec, fun _ _ => step_dec_keeps_enc, ?_, ?_⟩
  · intro s₁ s₂ t₁ t₂ hcfg hrst hturn hdec hports h₁ h₂
    rw [eq_withEnc hcfg hrst hturn hdec hports] at h₂
    exact step_withEnc_dec h₁ h₂
  · intro s₁ s₂ t₁ t₂ hcfg hrst hturn henc hports h₁ h₂
    rw [eq_withDec hcfg hrst hturn henc hports] at h₂
    exact step_withDec_enc h₁ h₂

/-! ### The status codes, and the host's side (R36) -/

/-- Code 3 is `ERROR` alone. -/
theorem unitState_code_eq_three (u : UnitState) : u.code = 3#2 ↔ u = .error := by
  cases u <;> decide

/-- The frame of a host action: it writes `rst` and ports only. -/
theorem hostAct_frame (a : HostAction) (s : State) :
    hostAct a s = { s with
      rst := (hostAct a s).rst
      encPorts := (hostAct a s).encPorts
      decPorts := (hostAct a s).decPorts } := by
  cases a with
  | offerEncStart | offerDecStart =>
    simp only [hostAct]
    split <;> rfl
  | _ => rfl

@[simp] theorem hostAct_enc (a : HostAction) (s : State) : (hostAct a s).enc = s.enc := by
  rw [hostAct_frame]

@[simp] theorem hostAct_dec (a : HostAction) (s : State) : (hostAct a s).dec = s.dec := by
  rw [hostAct_frame]

@[simp] theorem hostAct_cfg (a : HostAction) (s : State) : (hostAct a s).cfg = s.cfg := by
  rw [hostAct_frame]

/-- Settles O38: the codes by evaluation, code 3 by the invariant, and host actions write ports only. -/
theorem statusCodesAndHostReadOnly : Obligations.StatusCodesAndHostReadOnly := by
  refine ⟨⟨rfl, rfl, rfl, rfl⟩, ⟨rfl, rfl, rfl⟩, fun _ => ⟨rfl, rfl⟩, ?_, ?_⟩
  · intro s hinv h
    exact hinv.enc.neverError ((unitState_code_eq_three _).mp h)
  · exact fun a s => ⟨hostAct_enc a s, hostAct_dec a s, hostAct_cfg a s⟩

end Sys2Proof.Machine
end

section
/-! PROOFS. The family of spec/40_color_cache.md: `PACK` and its inverse (R102, R103), the slot that `UPDATE` writes (R105), collisions (R109). -/

namespace Sys2Proof.Machine

/-! ### `PACK` and `UNPACK` (R102, R103) -/

/-- The three shifted channels share no bit, so joining them by `|` is adding them. -/
theorem packColor_toNat (c : Color) :
    (packColor c).toNat = c.r.toNat + 256 * c.g.toNat + 65536 * c.b.toNat := by
  have hr := c.r.isLt
  have hg := c.g.isLt
  have hb := c.b.isLt
  have hlow : c.r.toNat ||| c.g.toNat * 2 ^ 8 = c.g.toNat * 2 ^ 8 + c.r.toNat := by
    rw [Nat.or_comm, Nat.mul_comm, Nat.two_pow_add_eq_or_of_lt hr]
  have hhigh : (c.g.toNat * 2 ^ 8 + c.r.toNat) ||| c.b.toNat * 2 ^ 16 =
      c.b.toNat * 2 ^ 16 + (c.g.toNat * 2 ^ 8 + c.r.toNat) := by
    rw [Nat.or_comm, Nat.mul_comm (c.b.toNat), Nat.two_pow_add_eq_or_of_lt (by omega)]
  have hchannels : (packColor c).toNat =
      c.r.toNat ||| c.g.toNat * 2 ^ 8 ||| c.b.toNat * 2 ^ 16 := by
    simp (disch := omega) only [packColor, BitVec.toNat_or, BitVec.toNat_shiftLeft,
      BitVec.toNat_setWidth, Nat.shiftLeft_eq, Nat.mod_eq_of_lt]
  rw [hchannels, hlow, hhigh]
  omega

@[simp] theorem unpackColor_packColor (c : Color) : unpackColor (packColor c) = c := by
  obtain ⟨r, g, b⟩ := c
  have hr := r.isLt
  have hg := g.isLt
  have hb := b.isLt
  simp only [unpackColor, Color.mk.injEq, ← BitVec.toNat_inj, BitVec.extractLsb'_toNat, packColor_toNat,
    Nat.shiftRight_eq_div_pow]
  omega

@[simp] theorem packColor_unpackColor (v : Slot) : packColor (unpackColor v) = v := by
  apply BitVec.eq_of_toNat_eq
  have hv := v.isLt
  simp only [packColor_toNat, unpackColor, BitVec.extractLsb'_toNat, Nat.shiftRight_eq_div_pow]
  omega

theorem packColor_inj {c d : Color} : packColor c = packColor d ↔ c = d :=
  (Function.LeftInverse.injective unpackColor_packColor).eq_iff

theorem packColor_eq_zero_iff (c : Color) : packColor c = 0#24 ↔ c = black := by
  rw [← packColor_black, packColor_inj]

/-- Settles O40: the layout as a sum, the inverses by arithmetic on it, injectivity by the left inverse. -/
theorem packIsInvertible : Obligations.PackIsInvertible :=
  ⟨packColor_toNat, unpackColor_packColor, packColor_unpackColor, fun _ _ => packColor_inj,
    packColor_eq_zero_iff⟩

/-! ### `UPDATE` (R105) -/

/-- Two caches that agree at every slot are equal. -/
theorem cache_ext {m m' : Cache} (h : ∀ k, cacheSlot m k = cacheSlot m' k) : m = m' :=
  Vector.ext fun k hk => by simpa [cacheSlot, hk] using h k

/-- `UPDATE` of the color a slot already holds changes nothing. -/
theorem cacheUpdate_of_cached {m : Cache} {c : Color} (h : cacheSlot m (hash c) = packColor c) :
    cacheUpdate m c = m := by
  apply cache_ext
  intro k
  obtain rfl | hk := eq_or_ne k (hash c)
  · rw [cacheSlot_cacheUpdate_self, h]
  · exact cacheSlot_cacheUpdate_ne m c k hk

/-- Settles O41: the written slot, the others, and the update that rewrites what is there. -/
theorem updateWritesOneSlot : Obligations.UpdateWritesOneSlot := fun m c =>
  ⟨cacheSlot_cacheUpdate_self m c, cacheSlot_cacheUpdate_ne m c, cacheUpdate_of_cached⟩

/-! ### `LOOKUP` after `UPDATE` (R104, R109) -/

/-- `LOOKUP(c)` hits exactly when its slot unpacks to `c`. -/
theorem lookup_hit_iff (m : Cache) (c : Color) :
    (lookup m c).1 = true ↔ unpackColor (cacheSlot m (hash c)) = c := by
  rw [lookup, beq_iff_eq, ← packColor_inj, packColor_unpackColor]

/-- In the slot that `UPDATE(d)` wrote, exactly `d` hits. -/
theorem lookup_cacheUpdate_hit_iff (m : Cache) {c d : Color} (h : hash c = hash d) :
    (lookup (cacheUpdate m d) c).1 = true ↔ c = d := by
  rw [lookup_hit_iff, h, cacheSlot_cacheUpdate_self, unpackColor_packColor, eq_comm]

/-- Settles O42: in a slot just written exactly its color hits, and a hit unpacks to the color. -/
theorem collisionIsAMiss : Obligations.CollisionIsAMiss := by
  intro m c d hash_eq hne
  refine ⟨?_, ?_, ?_, (lookup_hit_iff m c).mp⟩
  · exact Bool.eq_false_iff.mpr (mt (lookup_cacheUpdate_hit_iff m hash_eq).mp hne)
  · exact Bool.eq_false_iff.mpr (mt (lookup_cacheUpdate_hit_iff _ hash_eq.symm).mp hne.symm)
  · exact (lookup_cacheUpdate_hit_iff _ rfl).mpr rfl

end Sys2Proof.Machine
end

section
/-! PROOFS. The family of spec/41_bitpack.md: `CLASSIFY` on the 256 first bytes (R126). -/

namespace Sys2Proof.Machine

/-! ### `CLASSIFY` by the range of the first byte (R71, R126) -/

/-- The tag is the quarter of the byte range the first byte lies in. -/
theorem bitField_tag (b : Byte) : bitField b 6 2 = b.toNat / 64 := by
  have hb := b.isLt
  rw [bitField_eq]
  omega

/-- Below the two full-byte values the tag alone decides. -/
theorem classify_of_lt_rgb {b : Byte} (h : b.toNat < 0xFE) : classify b =
    if b.toNat < 0x40 then (.index, 1) else if b.toNat < 0x80 then (.diff, 1)
    else if b.toNat < 0xC0 then (.luma, 2) else (.run, 1) := by
  have hrgb : b ≠ 0xFE#8 := by rintro rfl; exact absurd h (by decide)
  have hrsv : b ≠ 0xFF#8 := by rintro rfl; exact absurd h (by decide)
  rw [classify, if_neg hrgb, if_neg hrsv, bitField_tag]
  split
  · rw [if_pos (by omega)]
  · rw [if_neg (by omega), if_pos (by omega)]
  · rw [if_neg (by omega), if_neg (by omega), if_pos (by omega)]
  · next not_index not_diff not_luma =>
    rw [imp_false] at not_index not_diff not_luma
    rw [if_neg (by omega), if_neg (by omega), if_neg (by omega)]

/-- Settles O45: below `0xFE` by the tag, then the two full-byte values. -/
theorem firstBytesPartition : Obligations.FirstBytesPartition := by
  intro b0
  obtain hlt | rfl | rfl : b0.toNat < 0xFE ∨ b0 = 0xFE#8 ∨ b0 = 0xFF#8 := by bv_omega
  · rw [classify_of_lt_rgb hlt, if_pos hlt]
  · rfl
  · rfl

end Sys2Proof.Machine
end

section
/-! SUPPORT. What the packers put into bytes (R120 to R125): the fields of a byte share no bit, so joining them by `|` is adding them. -/

namespace Sys2Proof

/-- A byte whose bits below `k` are clear, joined with a field of `k` bits. -/
theorem toNat_or_of_dvd_of_lt {x y : Byte} {k : Nat} (hx : 2 ^ k ∣ x.toNat) (hy : y.toNat < 2 ^ k) :
    (x ||| y).toNat = x.toNat + y.toNat := by
  obtain ⟨a, ha⟩ := hx
  rw [BitVec.toNat_or, ha, Nat.two_pow_add_eq_or_of_lt hy]

/-- A signed operand and its bias add up to the field as a number (R77). -/
theorem toNat_biased {v bias : Int} (h0 : 0 ≤ v + bias) (h : v + bias < 256) :
    ((biased v bias).toNat : Int) = v + bias := by
  rw [biased, BitVec.toNat_ofInt]
  omega

/-- A field moved up `k` bits inside the byte. -/
theorem toNat_shiftLeft_of_lt {x : Byte} {k : Nat} (h : x.toNat * 2 ^ k < 256) :
    (x <<< k).toNat = x.toNat * 2 ^ k := by
  rw [BitVec.toNat_shiftLeft, Nat.shiftLeft_eq, Nat.mod_eq_of_lt h]

/-- `PACK_INDEX` of a slot index is the index as a byte (R120). -/
theorem encode_index {i : Nat} (h : i < 64) : encode (.index i) = some [BitVec.ofNat 8 i] := by
  simp [encode, packIndex, h]

/-- `PACK_RUN` of a run count is `0xC0` plus the count (R124). -/
theorem encode_run {n : Nat} (h : n ≤ 61) : encode (.run n) = some [BitVec.ofNat 8 (0xC0 + n)] := by
  have hn : (BitVec.ofNat 8 n).toNat = n := by
    rw [BitVec.toNat_ofNat]
    omega
  have hbyte : 0xC0#8 ||| BitVec.ofNat 8 n = BitVec.ofNat 8 (0xC0 + n) := by
    apply BitVec.eq_of_toNat_eq
    rw [toNat_or_of_dvd_of_lt (k := 6) (by decide) (by omega), BitVec.toNat_ofNat, hn,
      BitVec.toNat_ofNat]
    omega
  simp [encode, packRun, h, hbyte]

/-- The byte of `PACK_DIFF`: tag `0x40` and three 2-bit fields (R121). -/
theorem encode_diff {dr dg db : Int} (hr : -2 ≤ dr ∧ dr ≤ 1) (hg : -2 ≤ dg ∧ dg ≤ 1)
    (hb : -2 ≤ db ∧ db ≤ 1) :
    ∃ b0 : Byte, encode (.diff dr dg db) = some [b0] ∧
      (b0.toNat : Int) = 64 + (dr + 2) * 16 + (dg + 2) * 4 + (db + 2) := by
  refine ⟨_, if_pos (by simp [hr, hg, hb]), ?_⟩
  have er := toNat_biased (v := dr) (bias := 2) (by omega) (by omega)
  have eg := toNat_biased (v := dg) (bias := 2) (by omega) (by omega)
  have eb := toNat_biased (v := db) (bias := 2) (by omega) (by omega)
  have sr := toNat_shiftLeft_of_lt (x := biased dr 2) (k := 4) (by omega)
  have sg := toNat_shiftLeft_of_lt (x := biased dg 2) (k := 2) (by omega)
  have jr : (0x40#8 ||| biased dr 2 <<< 4).toNat = 64 + (biased dr 2).toNat * 16 := by
    rw [toNat_or_of_dvd_of_lt (k := 6) (by decide) (by omega), sr]
    rfl
  have jg := toNat_or_of_dvd_of_lt (x := 0x40#8 ||| biased dr 2 <<< 4) (y := biased dg 2 <<< 2) (k := 4)
    (by omega) (by omega)
  rw [toNat_or_of_dvd_of_lt (k := 2) (by omega) (by omega)]
  omega

/-- The bytes of `PACK_LUMA`: tag `0x80` with the 6-bit field of `dg`, then two nibbles (R122). -/
theorem encode_luma {dg drg dbg : Int} (hg : -32 ≤ dg ∧ dg ≤ 31) (hr : -8 ≤ drg ∧ drg ≤ 7)
    (hb : -8 ≤ dbg ∧ dbg ≤ 7) :
    ∃ b0 b1 : Byte, encode (.luma dg drg dbg) = some [b0, b1] ∧ (b0.toNat : Int) = 128 + (dg + 32) ∧
      (b1.toNat : Int) = (drg + 8) * 16 + (dbg + 8) := by
  refine ⟨_, _, if_pos (by simp [hr, hg, hb]), ?_, ?_⟩
  · have eg := toNat_biased (v := dg) (bias := 32) (by omega) (by omega)
    rw [toNat_or_of_dvd_of_lt (k := 6) (by decide) (by omega), Nat.cast_add, eg]
    rfl
  · have er := toNat_biased (v := drg) (bias := 8) (by omega) (by omega)
    have eb := toNat_biased (v := dbg) (bias := 8) (by omega) (by omega)
    have sr := toNat_shiftLeft_of_lt (x := biased drg 8) (k := 4) (by omega)
    rw [toNat_or_of_dvd_of_lt (k := 4) (by omega) (by omega)]
    omega

/-- No packer refuses an operand in its range (R125). -/
theorem exists_encode_of_wf {i : Instr} (h : i.wf = true) : ∃ bytes, encode i = some bytes := by
  cases i <;> simp_all [Instr.wf, encode, packIndex, packDiff, packLuma, packRun]

/-- A list of one operation encodes to the bytes of that operation. -/
theorem encodeAll_singleton {i : Instr} {bytes : List Byte} (h : encode i = some bytes) :
    encodeAll [i] = some bytes := by
  simpa using encodeAll_cons i [] bytes [] h encodeAll_nil

end Sys2Proof
end

section
/-! SUPPORT. The choices of one `ENC_PIXEL` step (R141 to R150): its deltas, its operation by case, the flush of a run, and the move that emits them. -/

namespace Sys2Proof.Machine

/-! ### `DELTAS` (R142) -/

/-- `s8` gives a number in `-128..127` that is congruent to its argument modulo 256 (R8). -/
theorem s8_spec (v : Int) : -128 ≤ s8 v ∧ s8 v ≤ 127 ∧ (v - s8 v) % 256 = 0 := by
  have hv := toNat_u8 v
  simp only [s8, sext8]
  split <;> omega

/-- A signed channel difference in `-128..127` is the one `DELTAS` gives. -/
theorem isDelta_iff_eq_s8 {c p : Byte} {d : Int} (hlo : -128 ≤ d) (hhi : d ≤ 127) :
    IsDelta c p d ↔ s8 (chan c - chan p) = d := by
  have h := s8_spec (chan c - chan p)
  simp only [chan, IsDelta] at *
  omega

/-- The deltas that `DIFF` can carry are those of `DELTAS`, where they fit (R146). -/
theorem diffDeltas_iff (c p : Color) (dr dg db : Int) :
    DiffDeltas c p dr dg db ↔ deltas c p = (dr, dg, db) ∧ fitsDiff dr dg db = true := by
  simp only [DiffDeltas, deltas, fitsDiff, Prod.mk.injEq, Bool.and_eq_true, inRange_iff]
  constructor
  · rintro ⟨ir, ig, ib, hr, hg, hb⟩
    rw [isDelta_iff_eq_s8 (by omega) (by omega)] at ir ig ib
    exact ⟨⟨ir, ig, ib⟩, ⟨hr, hg⟩, hb⟩
  · rintro ⟨⟨ir, ig, ib⟩, ⟨hr, hg⟩, hb⟩
    rw [← isDelta_iff_eq_s8 (by omega) (by omega)] at ir ig ib
    exact ⟨ir, ig, ib, hr, hg, hb⟩

/-- The deltas that `LUMA` can carry are those of `DELTAS`, where they fit (R147). -/
theorem lumaDeltas_iff (c p : Color) (dr dg db : Int) :
    LumaDeltas c p dr dg db ↔ deltas c p = (dr, dg, db) ∧ fitsLuma dr dg db = true := by
  simp only [LumaDeltas, deltas, fitsLuma, Prod.mk.injEq, Bool.and_eq_true, inRange_iff]
  constructor
  · rintro ⟨ir, ig, ib, hg, hr, hb⟩
    rw [isDelta_iff_eq_s8 (by omega) (by omega)] at ir ig ib
    exact ⟨⟨ir, ig, ib⟩, ⟨hg, hr⟩, hb⟩
  · rintro ⟨⟨ir, ig, ib⟩, ⟨hg, hr⟩, hb⟩
    rw [← isDelta_iff_eq_s8 (by omega) (by omega)] at ir ig ib
    exact ⟨ir, ig, ib, hg, hr, hb⟩

/-! ### Cases 3a to 3d (R145 to R148) -/

/-- `LOOKUP` misses exactly when the slot does not hold the color (R104). -/
theorem lookup_eq_false_iff (m : Cache) (c : Color) : (lookup m c).1 = false ↔ Misses m c := by
  simp [lookup, Misses]

theorem encChoose_hit {e : EncUnit} {c : Color} (h : ¬ Misses e.cache c) :
    encChoose e c = .index (hash c) := by
  have hit : (lookup e.cache c).1 = true := by simpa [← lookup_eq_false_iff] using h
  exact if_pos hit

section
variable {e : EncUnit} {c : Color} {dr dg db : Int} (hmiss : Misses e.cache c)
include hmiss

theorem encChoose_diff (hd : DiffDeltas c e.last dr dg db) : encChoose e c = .diff dr dg db := by
  obtain ⟨hdeltas, hfits⟩ := (diffDeltas_iff c e.last dr dg db).mp hd
  simp [encChoose, (lookup_eq_false_iff _ _).mpr hmiss, hdeltas, hfits]

theorem encChoose_luma (hnd : ∀ dr dg db, ¬ DiffDeltas c e.last dr dg db)
    (hl : LumaDeltas c e.last dr dg db) : encChoose e c = .luma dg (dr - dg) (db - dg) := by
  obtain ⟨hdeltas, hfits⟩ := (lumaDeltas_iff c e.last dr dg db).mp hl
  have hnfits : fitsDiff dr dg db = false := by simpa [diffDeltas_iff, hdeltas] using hnd dr dg db
  simp [encChoose, (lookup_eq_false_iff _ _).mpr hmiss, hdeltas, hnfits, hfits]

theorem encChoose_raw (hnd : ∀ dr dg db, ¬ DiffDeltas c e.last dr dg db)
    (hnl : ∀ dr dg db, ¬ LumaDeltas c e.last dr dg db) : encChoose e c = .rgb c.r c.g c.b := by
  rcases hdeltas : deltas c e.last with ⟨dr, dg, db⟩
  have hnd' : fitsDiff dr dg db = false := by simpa [diffDeltas_iff, hdeltas] using hnd dr dg db
  have hnl' : fitsLuma dr dg db = false := by simpa [lumaDeltas_iff, hdeltas] using hnl dr dg db
  simp [encChoose, (lookup_eq_false_iff _ _).mpr hmiss, hdeltas, hnd', hnl']

end

/-- All `encChoose` can pick: `INDEX` on a hit, and on a miss `DIFF` or `LUMA` of the deltas, or `RGB`. -/
theorem encChoose_cases (e : EncUnit) (c : Color) :
    (¬ Misses e.cache c ∧ encChoose e c = .index (hash c)) ∨
    (∃ dr dg db, DiffDeltas c e.last dr dg db ∧ encChoose e c = .diff dr dg db) ∨
    (∃ dr dg db, LumaDeltas c e.last dr dg db ∧ encChoose e c = .luma dg (dr - dg) (db - dg)) ∨
    encChoose e c = .rgb c.r c.g c.b := by
  by_cases hmiss : Misses e.cache c
  · by_cases hd : ∃ dr dg db, DiffDeltas c e.last dr dg db
    · obtain ⟨dr, dg, db, hd⟩ := hd
      exact .inr (.inl ⟨dr, dg, db, hd, encChoose_diff hmiss hd⟩)
    · push Not at hd
      by_cases hl : ∃ dr dg db, LumaDeltas c e.last dr dg db
      · obtain ⟨dr, dg, db, hl⟩ := hl
        exact .inr (.inr (.inl ⟨dr, dg, db, hl, encChoose_luma hmiss hd hl⟩))
      · push Not at hl
        exact .inr (.inr (.inr (encChoose_raw hmiss hd hl)))
  · exact .inl ⟨hmiss, encChoose_hit hmiss⟩

/-- The operation chosen has its operands in range (R152). -/
theorem encChoose_wf (e : EncUnit) (c : Color) : (encChoose e c).wf = true := by
  obtain ⟨-, h⟩ | ⟨dr, dg, db, hd, h⟩ | ⟨dr, dg, db, hl, h⟩ | h := encChoose_cases e c <;> rw [h]
  · exact decide_eq_true (hash_lt c)
  · exact ((diffDeltas_iff c e.last dr dg db).mp hd).2
  · exact ((lumaDeltas_iff c e.last dr dg db).mp hl).2
  · rfl

theorem encChoose_kind (e : EncUnit) (c : Color) :
    (encChoose e c).kind = .index ∨ (encChoose e c).kind = .diff ∨ (encChoose e c).kind = .luma ∨
      (encChoose e c).kind = .rgb := by
  obtain ⟨-, h⟩ | ⟨_, _, _, -, h⟩ | ⟨_, _, _, -, h⟩ | h := encChoose_cases e c <;> simp [h, Instr.kind]

/-! ### The flush of a run (R144, R150) -/

@[simp] theorem flushOps_zero : flushOps 0#6 = [] := rfl

@[simp] theorem flushBytes_zero : flushBytes 0 = [] := rfl

theorem flushBytes_pos {n : Nat} (h : n ≠ 0) : flushBytes n = [BitVec.ofNat 8 (0xC0 + n)] := if_neg h

theorem flushBytes_length_le (n : Nat) : (flushBytes n).length ≤ 1 := by
  unfold flushBytes
  split <;> simp

theorem encodeAll_flushOps {run : BitVec 6} (h : run.toNat ≤ 61) :
    encodeAll (flushOps run) = some (flushBytes run.toNat) := by
  obtain rfl | hne := eq_or_ne run 0#6
  · rfl
  · have hpos : run.toNat ≠ 0 := by bv_omega
    rw [flushOps, if_neg hne, flushBytes_pos hpos, encodeAll_singleton (encode_run h)]

/-! ### The decision of a pixel and its operations (R141, R143, R144, R150) -/

theorem extendsRun_iff (cfg : Config) (e : EncUnit) (c : Color) :
    extendsRun cfg e c = true ↔ c = e.last ∧ e.run.toNat < cfg.runCap := by
  simp [extendsRun]

theorem encDecide_absorbed {cfg : Config} {e : EncUnit} (h : e.run.toNat < cfg.runCap) :
    encDecide cfg e e.last = ([], e.run + 1#6) :=
  if_pos ((extendsRun_iff cfg e e.last).mpr ⟨rfl, h⟩)

theorem encDecide_notAbsorbed {s : State} {c : Color} (h : NotAbsorbed s c) :
    encDecide s.cfg s.enc c = (flushOps s.enc.run ++ [encChoose s.enc c], 0#6) :=
  if_neg (mt (extendsRun_iff s.cfg s.enc c).mp h)

/-- A run below a legal `RUN_CAP` is extended without wrapping (R27). -/
theorem toNat_run_succ {cfg : Config} {run : BitVec 6} (hcfg : cfg.wf = true)
    (h : run.toNat < cfg.runCap) : (run + 1#6).toNat = run.toNat + 1 := by
  have hcap := ((Config.wf_iff cfg).mp hcfg).2
  bv_omega

/-- The last pixel of a pass flushes the run that its decision leaves (R150). -/
theorem encOps_last {e : EncUnit} (cfg : Config) (c : Color) (h : e.pixIdx + 1 = e.npix) :
    encOps cfg e c = ((encDecide cfg e c).1 ++ flushOps (encDecide cfg e c).2, 0#6) := if_pos h

/-- Before the last pixel of a pass the decision is all there is. -/
theorem encOps_not_last {e : EncUnit} (cfg : Config) (c : Color) (h : e.pixIdx + 1 ≠ e.npix) :
    encOps cfg e c = encDecide cfg e c := if_neg h

/-- A pixel that is not absorbed leaves no run, so the end of the pass adds nothing to it. -/
theorem encOps_notAbsorbed {s : State} {c : Color} (h : NotAbsorbed s c) :
    encOps s.cfg s.enc c = (flushOps s.enc.run ++ [encChoose s.enc c], 0#6) := by
  by_cases hlast : s.enc.pixIdx + 1 = s.enc.npix
  · rw [encOps_last _ _ hlast, encDecide_notAbsorbed h, flushOps_zero, List.append_nil]
  · rw [encOps_not_last _ _ hlast, encDecide_notAbsorbed h]

/-! ### The move -/

/-- `ENC` completes a pixel whose operations encode to at most five bytes (R51, R141). -/
theorem EncReady.completes {s : State} {c : Color} {rest : List Color} {ops : List Instr}
    {run : BitVec 6} {out : List Byte} (h : EncReady s c rest) (hops : encOps s.cfg s.enc c = (ops, run))
    (hout : encodeAll ops = some out) (hlen : out.length ≤ 5) :
    ∃ t, encMove s = .next t ∧ EncPixelDone s t c rest out run.toNat := by
  have hmove := encMove_pixel (out := out) h.noStart h.offered h.running (by rw [hops, hout])
    (byteRoom_mono hlen h.room)
  rw [hops] at hmove
  exact ⟨_, hmove, encPixelDone_encComplete h.running c rest out run⟩

theorem encode_length_le {i : Instr} {bytes : List Byte} (h : encode i = some bytes) :
    bytes.length ≤ 4 := by
  have hlen := encode_length h
  have hcases := instr_length_cases i
  omega

/-- A pixel that is not absorbed emits the flush of the pending run and the bytes of its one operation (R144). -/
theorem EncReady.emits {s : State} {c : Color} {rest : List Color} {i : Instr} {bytes : List Byte}
    (h : EncReady s c rest) (hrun : s.enc.run.toNat ≤ 61) (hna : NotAbsorbed s c)
    (hi : encChoose s.enc c = i) (hbytes : encode i = some bytes) :
    ∃ t, encMove s = .next t ∧ EncPixelDone s t c rest (flushBytes s.enc.run.toNat ++ bytes) 0 := by
  subst hi
  refine h.completes (encOps_notAbsorbed hna)
    (encodeAll_append (encodeAll_flushOps hrun) (encodeAll_singleton hbytes)) ?_
  have hflush := flushBytes_length_le s.enc.run.toNat
  have hop := encode_length_le hbytes
  rw [List.length_append]
  omega

end Sys2Proof.Machine
end

section
/-! PROOFS. The family of spec/42_encoder.md: the start of a pass (R140), the cases of a pixel (R143 to R148), the end of a pass (R150). -/

namespace Sys2Proof.Machine

/-! ### A pixel that is not absorbed (R144 to R148) -/

/-- Settles O20: the operation `encChoose` picks is in range, so it encodes, and it alone follows the flush. -/
theorem encoderFlushesRunBeforeOperation : Obligations.EncoderFlushesRunBeforeOperation := by
  intro s c rest hready hrun hna
  obtain ⟨bytes, hbytes⟩ := exists_encode_of_wf (encChoose_wf s.enc c)
  obtain ⟨t, hmove, hdone⟩ := hready.emits hrun hna rfl hbytes
  exact ⟨t, _, bytes, hmove, hbytes, encChoose_kind s.enc c, encode_length_le hbytes, hdone⟩

/-- Settles O21: a hit chooses `INDEX` before any delta is looked at. -/
theorem encoderEmitsIndexOnHit : Obligations.EncoderEmitsIndexOnHit := by
  intro s c rest hready hrun hna hhit
  exact hready.emits hrun hna (encChoose_hit hhit) (encode_index (hash_lt c))

/-- Settles O22: the deltas given are those of `DELTAS`, and they fit `DIFF`. -/
theorem encoderEmitsDiff : Obligations.EncoderEmitsDiff := by
  intro s c rest dr dg db hready hrun hna hmiss hd
  have ⟨_, _, _, hr, hg, hb⟩ := hd
  obtain ⟨b0, hbytes, hb0⟩ := encode_diff hr hg hb
  obtain ⟨t, hmove, hdone⟩ := hready.emits hrun hna (encChoose_diff hmiss hd) hbytes
  exact ⟨t, b0, hmove, hb0, hdone⟩

/-- Settles O23: the deltas given are those of `DELTAS`; they do not fit `DIFF` and fit `LUMA`. -/
theorem encoderEmitsLuma : Obligations.EncoderEmitsLuma := by
  intro s c rest dr dg db hready hrun hna hmiss hnd hl
  have ⟨_, _, _, hg, hr, hb⟩ := hl
  obtain ⟨b0, b1, hbytes, hb0, hb1⟩ := encode_luma hg hr hb
  obtain ⟨t, hmove, hdone⟩ := hready.emits hrun hna (encChoose_luma hmiss hnd hl) hbytes
  exact ⟨t, b0, b1, hmove, hb0, hb1, hdone⟩

/-- Settles O24: with no deltas that fit, `RGB` is what is left, and it has no range to miss. -/
theorem encoderEmitsRawOtherwise : Obligations.EncoderEmitsRawOtherwise := by
  intro s c rest hready hrun hna hmiss hnd hnl
  exact hready.emits hrun hna (encChoose_raw hmiss hnd hnl) rfl

/-! ### Runs and the end of a pass (R143, R150) -/

/-- Settles O19: the extended run is kept, or flushed by the pixel that ends the pass. -/
theorem encoderAbsorbsRunPixel : Obligations.EncoderAbsorbsRunPixel := by
  intro s rest hcfg hready hcap
  have hrun := toNat_run_succ hcfg hcap
  have hdecide := encDecide_absorbed hcap
  by_cases hlast : s.enc.pixIdx + 1 = s.enc.npix
  · have hle : (s.enc.run + 1#6).toNat ≤ 61 := by
      have hmax := ((Config.wf_iff s.cfg).mp hcfg).2
      omega
    have hops : encOps s.cfg s.enc s.enc.last = (flushOps (s.enc.run + 1#6), 0#6) := by
      rw [encOps_last _ _ hlast, hdecide, List.nil_append]
    obtain ⟨t, hmove, hdone⟩ := hready.completes hops (encodeAll_flushOps hle)
      ((flushBytes_length_le _).trans (by decide))
    rw [hrun, flushBytes_pos (Nat.succ_ne_zero _)] at hdone
    exact ⟨t, hmove, absurd hlast, fun _ => hdone⟩
  · obtain ⟨t, hmove, hdone⟩ := hready.completes ((encOps_not_last _ _ hlast).trans hdecide)
      encodeAll_nil (by decide)
    exact ⟨t, hmove, fun _ => hrun ▸ hdone, fun h => absurd h hlast⟩

/-- What a decision emits and the flush of the run it leaves are at most five bytes together (R153): a decision
either emits nothing or leaves no run. -/
theorem encDecide_encodes {s : State} (hinv : s.Inv) (c : Color) :
    ∃ bytes, encodeAll (encDecide s.cfg s.enc c).1 = some bytes ∧
      (encDecide s.cfg s.enc c).2.toNat ≤ 61 ∧
      (bytes ++ flushBytes (encDecide s.cfg s.enc c).2.toNat).length ≤ 5 := by
  have hmax := ((Config.wf_iff s.cfg).mp hinv.cfgOk).2
  by_cases habs : c = s.enc.last ∧ s.enc.run.toNat < s.cfg.runCap
  · obtain ⟨rfl, hcap⟩ := habs
    have hrun := toNat_run_succ hinv.cfgOk hcap
    rw [encDecide_absorbed hcap]
    exact ⟨[], encodeAll_nil, hrun.trans_le (by omega), (flushBytes_length_le _).trans (by decide)⟩
  · obtain ⟨bytes, hbytes⟩ := exists_encode_of_wf (encChoose_wf s.enc c)
    have hflush := flushBytes_length_le s.enc.run.toNat
    have hop := encode_length_le hbytes
    rw [encDecide_notAbsorbed habs]
    refine ⟨_, encodeAll_append (encodeAll_flushOps (hinv.enc.runInRange.trans hmax))
      (encodeAll_singleton hbytes), Nat.zero_le 61, ?_⟩
    simp only [BitVec.toNat_ofNat, Nat.zero_mod, flushBytes_zero, List.append_nil, List.length_append]
    omega

/-- Settles O26: the decision's bytes and the flush of the run it leaves go out in one step, which ends the pass. -/
theorem encoderFlushesAtEndOfPass : Obligations.EncoderFlushesAtEndOfPass := by
  intro s c rest hinv hready hlast
  obtain ⟨bytes, hbytes, hrun, hlen⟩ := encDecide_encodes hinv c
  obtain ⟨t, hmove, hdone⟩ := hready.completes (encOps_last _ _ hlast)
    (encodeAll_append hbytes (encodeAll_flushOps hrun)) hlen
  exact ⟨t, bytes, hmove, hbytes, hdone.state.trans (if_pos hlast), hdone⟩

/-! ### The start of a pass (R140) -/

/-- Settles O32: the move takes the `START`, whatever `STATE` is, and `encStart` gives every register. -/
theorem encStartReinitialises : Obligations.EncStartReinitialises := by
  intro s npix hstart hfits
  exact ⟨encStart npix s, encMove_start hstart (decide_eq_true hfits), cacheSlot_emptyCache, rfl, rfl, rfl,
    rfl, rfl, rfl, rfl, rfl, rfl, rfl, rfl, rfl⟩

end Sys2Proof.Machine
end

section
/-! SUPPORT. What the decoder reads off the first byte (R127 to R131, R173, R182) and what a `DEC_PIXEL` step that reads an operation ends in (R174 to R182). -/

namespace Sys2Proof.Machine

/-! ### Operations by the range of the first byte -/

section
variable {b0 : Byte}

theorem decode_index (h : b0.toNat < 64) (rest : List Byte) :
    decode (b0 :: rest) = .ok (.index b0.toNat, rest) := by
  have hkind : classify b0 = (.index, 1) := by
    rw [classify_of_lt_rgb (by omega), if_pos (by omega)]
  have hfield : unpackIndex b0 = b0.toNat := by
    rw [unpackIndex, bitField_eq]
    omega
  simp only [decode, hkind, hfield]

theorem decode_diff (hlo : 64 ≤ b0.toNat) (hhi : b0.toNat < 128) (rest : List Byte) :
    decode (b0 :: rest) = .ok (.diff (((b0.toNat / 16 % 4 : Nat) : Int) - 2)
      (((b0.toNat / 4 % 4 : Nat) : Int) - 2) (((b0.toNat % 4 : Nat) : Int) - 2), rest) := by
  have hkind : classify b0 = (.diff, 1) := by
    rw [classify_of_lt_rgb (by omega), if_neg (by omega), if_pos (by omega)]
  simp only [decode, hkind, unpackDiff, bitField_eq, Nat.pow_zero, Nat.div_one, Nat.reducePow]

theorem classify_luma (hlo : 128 ≤ b0.toNat) (hhi : b0.toNat < 192) : classify b0 = (.luma, 2) := by
  rw [classify_of_lt_rgb (by omega), if_neg (by omega), if_neg (by omega), if_pos (by omega)]

theorem decode_luma (hlo : 128 ≤ b0.toNat) (hhi : b0.toNat < 192) (b1 : Byte) (rest : List Byte) :
    decode (b0 :: b1 :: rest) = .ok (.luma (((b0.toNat % 64 : Nat) : Int) - 32)
      (((b1.toNat / 16 : Nat) : Int) - 8) (((b1.toNat % 16 : Nat) : Int) - 8), rest) := by
  have hnibble : b1.toNat / 16 % 16 = b1.toNat / 16 := by omega
  simp only [decode, classify_luma hlo hhi, unpackLuma, bitField_eq, Nat.pow_zero, Nat.div_one,
    Nat.reducePow, hnibble]

theorem decode_luma_truncated (hlo : 128 ≤ b0.toNat) (hhi : b0.toNat < 192) :
    decode [b0] = .error .truncated := by
  simp only [decode, classify_luma hlo hhi]

theorem decode_run (hlo : 192 ≤ b0.toNat) (hhi : b0.toNat < 254) (rest : List Byte) :
    decode (b0 :: rest) = .ok (.run (b0.toNat - 192), rest) := by
  have hkind : classify b0 = (.run, 1) := by
    rw [classify_of_lt_rgb (by omega), if_neg (by omega), if_neg (by omega), if_neg (by omega)]
  have hfield : unpackRun b0 = b0.toNat - 192 := by
    rw [unpackRun, bitField_eq]
    omega
  simp only [decode, hkind, hfield]

end

/-- `0xFE` needs three payload bytes after it (R174, R182). -/
theorem decode_rgb_truncated {tail : List Byte} (h : tail.length < 3) :
    decode (0xFE#8 :: tail) = .error .truncated := by
  match tail, h with
  | [], _ | [_], _ | [_, _], _ => rfl

/-! ### Steps that read an operation -/

/-- `REM'` of every run field `0..63` fits the register (R78, R176). -/
theorem toNat_runRemainder {n : Nat} (h : n < 64) :
    (runRemainder n).toNat = if n = 0 then 0 else n - 1 := by
  rw [runRemainder, BitVec.toNat_ofNat]
  split <;> omega

/-- An operation in range completes its pixel, unless it is the reserved byte under `FAULT` (R180). -/
theorem DecReady.completes {s : State} {i : Instr} (h : DecReady s) (hwf : i.wf = true)
    (hpolicy : ¬ (i = .rsvFF ∧ s.cfg.ffPolicy = .fault)) :
    ∃ t, exec i s = .next t ∧
      DecPixelDone s t (opEffect i s).2.1 (opEffect i s).1 (opEffect i s).2.2.toNat := by
  refine ⟨_, exec_ready hwf h, ?_⟩
  rw [opAfter, if_neg hpolicy]
  exact decPixelDone_completePixel h.running ..

/-- A move that finds end of stream enters the error (R182). -/
theorem DecReady.enters_truncated {s : State} (h : DecReady s) (hstart : s.decPorts.start = none)
    (hd : decode s.unread = .error .truncated) :
    ∃ t, decMove s = .next t ∧ DecErrorEntered s t .truncated :=
  ⟨_, decMove_truncated hstart h hd, decErrorEntered_raiseFormatError s .truncated⟩

/-- An operation consumes as many bytes as its encoding has (R80, R83). -/
theorem opEffect_length (i : Instr) (s : State) : (opEffect i s).2.1 = i.length := by
  cases i <;> rfl

end Sys2Proof.Machine
end

section
/-! PROOFS. The family of spec/43_decoder.md: the decoder's pixel step (R171 to R182) and its start (R170). -/

namespace Sys2Proof.Machine

/-! ### Every pixel step (R180, R181) -/

/-- Settles O16: a step that does not raise an error served a run or completed the operation it read. -/
theorem everyDecPixelStepCompletes : Obligations.EveryDecPixelStepCompletes := by
  intro s t hrun hroom hstart hmove hok
  obtain ⟨o, hoffer, -⟩ | ⟨-, hdisabled, -⟩ | ⟨-, -, hrem, rfl⟩ | ⟨-, -, -, rfl⟩ |
    ⟨-, hready, i, rest, hdecode, hexec⟩ := decMove_next hmove
  · simp [hstart] at hoffer
  · simp [(decEnabled_iff s).mpr ⟨hrun, hroom⟩] at hdisabled
  · exact ⟨0, _, _, decPixelDone_completePixel hrun .., .inl ⟨rfl, hrem⟩, fun _ _ h => absurd h hrem⟩
  · exact absurd rfl hok
  · obtain ⟨hnot, -⟩ | ⟨-, rfl⟩ | ⟨-, -, -, rfl⟩ := exec_next hexec
    · exact absurd hready hnot
    · refine ⟨_, _, _, decPixelDone_completePixel hrun .., .inr ⟨?_, hready.noRun⟩, ?_⟩
      · rw [opEffect_length]
        exact instr_length_cases i
      · intro k after _ hindex
        cases hdecode.symm.trans hindex
        exact packColor_unpackColor _
    · exact absurd rfl hok

/-- Settles O17: the completed step that reaches `NPIX` is `DONE`, and outside `RUNNING` no step is enabled. -/
theorem passEndsAtPixelCount : Obligations.PassEndsAtPixelCount := by
  constructor
  · intro s t hrun hroom hstart hmove hok hlast
    obtain ⟨_, _, _, hdone, -⟩ := everyDecPixelStepCompletes s t hrun hroom hstart hmove hok
    exact hdone.state.trans (if_pos hlast)
  · intro s hdone hstart
    exact decMove_waits hstart (by simp [State.decEnabled, hdone])

/-! ### The operations (R174 to R179) -/

/-- Settles O1: the slot is read from the cache before the step's `UPDATE`. -/
theorem indexYieldsSlotColor : Obligations.IndexYieldsSlotColor := by
  refine ⟨fun _ rest h => decode_index h rest, fun s i hready hi => ?_⟩
  obtain ⟨t, hexec, hdone⟩ := hready.completes (i := .index i) (decide_eq_true hi) (by simp)
  have hslot : packColor (readColor s.dec.cache i) = cacheSlot s.dec.cache i := packColor_unpackColor _
  exact ⟨t, _, hexec, hslot, fun h => (packColor_eq_zero_iff _).mp (hslot.trans h),
    by simpa [opEffect, hready.noRun] using hdone⟩

/-- Settles O2: each channel of the color is `u8` of a sum. -/
theorem diffAddsDeltasModulo256 : Obligations.DiffAddsDeltasModulo256 := by
  refine ⟨fun _ rest hlo hhi => decode_diff hlo hhi rest, fun s dr dg db hready hr hg hb => ?_⟩
  obtain ⟨t, hexec, hdone⟩ :=
    hready.completes (i := .diff dr dg db) (by simp [Instr.wf, hr, hg, hb]) (by simp)
  exact ⟨t, _, hexec, toNat_u8 _, toNat_u8 _, toNat_u8 _, by simpa [opEffect, hready.noRun] using hdone⟩

/-- Settles O3: each channel of the color is `u8` of a sum; without the second byte decoding fails. -/
theorem lumaAddsGreenAndOffsetsModulo256 : Obligations.LumaAddsGreenAndOffsetsModulo256 := by
  refine ⟨fun _ b1 rest hlo hhi => decode_luma hlo hhi b1 rest, fun s dg drg dbg hready hg hr hb => ?_,
    fun s b0 hready hstart hlo hhi hunread => ?_⟩
  · obtain ⟨t, hexec, hdone⟩ :=
      hready.completes (i := .luma dg drg dbg) (by simp [Instr.wf, hr, hg, hb]) (by simp)
    exact ⟨t, _, hexec, toNat_u8 _, toNat_u8 _, toNat_u8 _, by simpa [opEffect, hready.noRun] using hdone⟩
  · exact hready.enters_truncated hstart (hunread ▸ decode_luma_truncated hlo hhi)

/-- Settles O4: the payload is the operation's operands; without all of it decoding fails. -/
theorem rgbYieldsPayloadVerbatim : Obligations.RgbYieldsPayloadVerbatim := by
  refine ⟨fun _ _ _ _ => rfl, fun s r g b hready => ?_, fun s tail hready hstart hunread hshort => ?_⟩
  · obtain ⟨t, hexec, hdone⟩ := hready.completes (i := .rgb r g b) rfl (by simp)
    exact ⟨t, hexec, by simpa [opEffect, hready.noRun] using hdone⟩
  · exact hready.enters_truncated hstart (hunread ▸ decode_rgb_truncated hshort)

/-- Settles O5: the run operation delivers `LAST`, and its field less one fits `REM`. -/
theorem runRepeatsLastAndLoadsRemainder : Obligations.RunRepeatsLastAndLoadsRemainder := by
  refine ⟨fun _ rest hlo hhi => decode_run hlo hhi rest, fun s n hready hn => ?_⟩
  obtain ⟨t, hexec, hdone⟩ := hready.completes (i := .run n) (decide_eq_true hn) (by simp)
  exact ⟨t, hexec, toNat_runRemainder (n := n) (by omega) ▸ hdone⟩

/-- Settles O6: by the policy, a run with field 63 or the error entry. -/
theorem reservedByteFollowsPolicy : Obligations.ReservedByteFollowsPolicy := by
  refine ⟨fun _ => rfl, fun s hready hpolicy => ?_, fun s hready hpolicy => ?_⟩
  · exact hready.completes (i := .rsvFF) rfl (by simp [hpolicy])
  · refine ⟨_, exec_ready rfl hready, ?_⟩
    rw [opAfter, if_pos ⟨rfl, hpolicy⟩]
    exact decErrorEntered_raiseFormatError s .reservedOp

/-! ### A pending run and end of stream (R172, R182) -/

/-- Settles O10: the move serves the run, and one less of a positive `REM` does not wrap. -/
theorem pendingRunServesLast : Obligations.PendingRunServesLast := by
  intro s hrun hroom hstart hrem
  have hpred : (s.dec.rem - 1#6).toNat = s.dec.rem.toNat - 1 := by bv_omega
  exact ⟨_, decMove_pending hstart hrun hroom hrem, hpred ▸ decPixelDone_completePixel hrun ..⟩

/-- Settles O12: in each of the three places where the bytes end, decoding fails. -/
theorem endOfStreamRaisesTruncated : Obligations.EndOfStreamRaisesTruncated := by
  intro s hready hstart hends
  apply hready.enters_truncated hstart
  obtain hunread | ⟨b0, hlo, hhi, hunread⟩ | ⟨tail, hunread, hshort⟩ := hends
  · rw [hunread, decode]
  · rw [hunread, decode_luma_truncated hlo hhi]
  · rw [hunread, decode_rgb_truncated hshort]

/-! ### The start of a pass (R170) -/

/-- Settles O33: the move takes the `START`, whatever `STATE` is, and `decStart` gives every register. -/
theorem decStartReinitialises : Obligations.DecStartReinitialises := by
  intro s o hstart hfits
  exact ⟨decStart o s, decMove_start hstart (decide_eq_true hfits), cacheSlot_emptyCache, rfl, rfl, rfl,
    rfl, rfl, rfl, rfl, rfl, rfl, rfl, rfl, rfl, rfl⟩

end Sys2Proof.Machine
end

section
/-! SUPPORT. When `ENC` waits, and that a move of `ENC` always gives a next state under the invariant (R154, R213, R215); what a move of `DEC` into `ERROR` is (R202 to R204). -/

namespace Sys2Proof.Machine

/-! ### When `ENC` waits -/

/-- A move of `ENC` with no `START` and no pixel offered waits (R215). -/
theorem encMove_waits_no_pixel {s : State} (hs : s.encPorts.start = none) (hp : s.encPorts.pixIn = []) :
    encMove s = .next s := by
  simp [encMove, hs, hp]

/-- A move of `ENC` outside `RUNNING` with no `START` offered takes no pixel (R215). -/
theorem encMove_waits_not_running {s : State} (hs : s.encPorts.start = none)
    (hrun : s.enc.state ≠ .running) : encMove s = .next s := by
  unfold encMove
  rw [hs]
  cases s.encPorts.pixIn with
  | nil => rfl
  | cons c rest => exact if_neg hrun

/-- A move of `ENC` waits while `byte_out` does not accept the bytes of its step (R51). -/
theorem encMove_waits_no_room {s : State} {c : Color} {rest : List Color} {out : List Byte}
    (hs : s.encPorts.start = none) (hp : s.encPorts.pixIn = c :: rest)
    (ho : encodeAll (encOps s.cfg s.enc c).1 = some out) (hroom : s.byteRoom out.length = false) :
    encMove s = .next s := by
  simp [encMove, encPixel, hs, hp, ho, hroom]

/-! ### A move of `ENC` gives a next state -/

/-- What an `ENC_PIXEL` step emits encodes (R152), to at most five bytes (R153). -/
theorem encOps_encodes {s : State} (hinv : s.Inv) (c : Color) :
    ∃ out, encodeAll (encOps s.cfg s.enc c).1 = some out ∧ out.length ≤ 5 := by
  obtain ⟨bytes, hbytes, hrun, hlen⟩ := encDecide_encodes hinv c
  by_cases hlast : s.enc.pixIdx + 1 = s.enc.npix
  · rw [encOps_last _ _ hlast]
    exact ⟨_, encodeAll_append hbytes (encodeAll_flushOps hrun), hlen⟩
  · rw [encOps_not_last _ _ hlast]
    refine ⟨bytes, hbytes, ?_⟩
    rw [List.length_append] at hlen
    omega

/-- A move of `ENC` takes a `START`, waits, or encodes a pixel: no count is too wide, and no packer call is
refused. -/
theorem exists_encMove_next {s : State} (hinv : s.Inv) : ∃ t, encMove s = .next t := by
  cases hs : s.encPorts.start with
  | some n => exact ⟨_, encMove_start hs (hinv.encStartFits n hs)⟩
  | none =>
    by_cases hrun : s.enc.state = .running
    · cases hp : s.encPorts.pixIn with
      | nil => exact ⟨s, encMove_waits_no_pixel hs hp⟩
      | cons c rest =>
        obtain ⟨out, ho, -⟩ := encOps_encodes hinv c
        cases hroom : s.byteRoom out.length with
        | true => exact ⟨_, encMove_pixel hs hp hrun ho hroom⟩
        | false => exact ⟨s, encMove_waits_no_room hs hp ho hroom⟩
    · exact ⟨s, encMove_waits_not_running hs hrun⟩

/-- No row of the encoder's state table ends in `ERROR` (R31, R207). -/
theorem EncUnit.Transition.state_ne_error {start : Option Nat} {e e' : EncUnit}
    (h : e.Transition start e') (he : e.state ≠ .error) : e'.state ≠ .error := by
  obtain rfl | ⟨_, -, ⟨-, hstate⟩ | ⟨-, hstate⟩⟩ | ⟨-, -, ⟨-, hstate⟩ | ⟨-, hstate⟩⟩ := h
  · exact he
  all_goals simp [hstate]

/-! ### A move of `DEC` into `ERROR` -/

/-- A `START` leaves `RUNNING` or `DONE`, never `ERROR` (R31). -/
theorem startState_ne_error (npix : Nat) : startState npix ≠ .error := by
  obtain ⟨-, h⟩ | ⟨-, h⟩ := startState_cases npix <;> simp [h]

/-- A completed pixel step from `RUNNING` does not end in `ERROR`, whatever it delivers (R31). -/
theorem completePixel_state_ne_error {s : State} (hrun : s.dec.state = .running) (len : Nat) (c : Color)
    (rem : BitVec 6) : (completePixel s len c rem).dec.state ≠ .error := by
  rw [completePixel_dec_state, hrun, stateAfterPixel]
  split <;> decide

/-- The two causes for which a move takes `DEC` from `RUNNING` into `ERROR` (R202): end of stream, and the
reserved byte under `FAULT`. -/
theorem decMove_enters_error {s t : State} (hrun : s.dec.state = .running) (h : decMove s = .next t)
    (herr : t.dec.state = .error) :
    (decode s.unread = .error .truncated ∧ t = raiseFormatError .truncated s) ∨
    (s.cfg.ffPolicy = .fault ∧ t = raiseFormatError .reservedOp s) := by
  obtain ⟨o, -, -, rfl⟩ | ⟨-, -, rfl⟩ | ⟨-, -, -, rfl⟩ | ⟨-, -, hd, ht⟩ | ⟨-, hready, i, rest, -, hx⟩ :=
    decMove_next h
  · exact absurd herr (startState_ne_error o.npix)
  · simp [hrun] at herr
  · exact absurd herr (completePixel_state_ne_error hrun _ _ _)
  · exact .inl ⟨hd, ht⟩
  · obtain ⟨hnot, -⟩ | ⟨-, rfl⟩ | ⟨-, -, hpolicy, ht⟩ := exec_next hx
    · exact absurd hready hnot
    · exact absurd herr (completePixel_state_ne_error hrun _ _ _)
    · exact .inr ⟨hpolicy, ht⟩

end Sys2Proof.Machine
end

section
/-! PROOFS. The family of spec/60_exceptions.md: error entry and its causes (R202 to R204), the exits from `ERROR` (R205), no error in `ENC` (R207), no pixel step outside `RUNNING` (R215). -/

namespace Sys2Proof.Machine

/-! ### Errors of `DEC` (R202 to R205) -/

/-- Settles O13: both causes end in `raiseFormatError`, which writes `STATE` and `ERR_CODE`. -/
theorem errorEntryWritesOnlyStateAndCode : Obligations.ErrorEntryWritesOnlyStateAndCode := by
  intro s t hrun hmove herr
  obtain ⟨-, rfl⟩ | ⟨-, rfl⟩ := decMove_enters_error hrun hmove herr
  · exact ⟨decErrorEntered_raiseFormatError s _, .inl rfl⟩
  · exact ⟨decErrorEntered_raiseFormatError s _, .inr rfl⟩

/-- Settles O14: the other cause needs the policy `FAULT`. -/
theorem reservedOpOnlyUnderFault : Obligations.ReservedOpOnlyUnderFault := by
  intro s t hrun hmove herr hpolicy
  obtain ⟨hd, rfl⟩ | ⟨hfault, -⟩ := decMove_enters_error hrun hmove herr
  · exact ⟨rfl, hd⟩
  · simp [hpolicy] at hfault

/-- Settles O15: reset, or a move of `ENC`, which keeps `DEC`, or one of `DEC`, whose pixel steps need `RUNNING`. -/
theorem errorIsSticky : Obligations.ErrorIsSticky := by
  intro s t herr h
  obtain ⟨hr, hs⟩ | ⟨-, -, hs⟩ | ⟨hr, -, hs⟩ := step_eq s <;> rw [hs] at h
  · cases h
    exact .inr (.inl ⟨hr, rfl⟩)
  · exact .inl (encMove_keeps_dec (s := passTurn s) h)
  · obtain ⟨o, ho, rfl⟩ | rfl | ⟨hrun, -⟩ | ⟨hrun, -⟩ := decMove_update h
    · exact .inr (.inr ⟨hr, o, ho, rfl⟩)
    · exact .inl ⟨rfl, rfl⟩
    all_goals simp [herr] at hrun

/-! ### `ENC` (R207) -/

/-- Settles O30: the move gives a next state, by a row of the encoder's table. -/
theorem encoderRaisesNoError : Obligations.EncoderRaisesNoError := by
  intro s hinv
  obtain ⟨t, hmove⟩ := exists_encMove_next hinv
  exact ⟨t, hmove, (encMove_transition hinv.enc.runningUnfinished hmove).state_ne_error hinv.enc.neverError⟩

/-! ### Outside `RUNNING` (R215) -/

/-- Settles O36: both units wait outside `RUNNING`, and `ENC` also waits in it for a pixel. -/
theorem noPixelStepOutsideRunning : Obligations.NoPixelStepOutsideRunning :=
  ⟨fun _ _ hs hp => encMove_waits_no_pixel hs hp, fun _ hrun hs => encMove_waits_not_running hs hrun,
    fun _ hrun hs => decMove_waits hs (by simp [State.decEnabled, hrun])⟩

end Sys2Proof.Machine
end

section
/-! PROOFS. The family of spec/70_reset_and_hazards.md: the reset values of both units, and that a `START` after the reset finds nothing it depends on (R230). -/

namespace Sys2Proof.Machine

/-! ### Hardware reset (R230) -/

/-- `ENC_START` writes every register of `ENC`, so a reset before it leaves no trace in the unit (R140, R230). -/
theorem encStart_hardwareReset_enc (npix : Nat) (s : State) :
    (encStart npix (hardwareReset s)).enc = (encStart npix s).enc := rfl

/-- `DEC_START` writes every register of `DEC`, so a reset before it leaves no trace in the unit (R170, R230). -/
theorem decStart_hardwareReset_dec (o : DecStart) (s : State) :
    (decStart o (hardwareReset s)).dec = (decStart o s).dec := rfl

/-- Settles O34: with `rst` asserted the step is `hardwareReset`, whatever else is offered, and the reset units
give every register. -/
theorem hardwareResetValues : Obligations.HardwareResetValues := by
  intro s hrst
  exact ⟨hardwareReset s, step_reset hrst, hardwareReset_rst s, cacheSlot_emptyCache, cacheSlot_emptyCache,
    rfl, rfl, rfl, rfl, rfl, rfl, rfl, rfl, rfl, rfl, rfl, rfl, rfl,
    hardwareReset_enc s, hardwareReset_dec s, hardwareReset_cfg s,
    fun npix => encStart_hardwareReset_enc npix s, fun o => decStart_hardwareReset_dec o s⟩

end Sys2Proof.Machine
end

section
/-! PROOFS. The two directions of the encoding (R132): decoding what a packer gave, and encoding what the decoder accepted; the refusals of the packers (R125). -/

namespace Sys2Proof.Machine

/-! ### Decoding an encoding -/

/-- The byte `0xC0 + n` is read as the run operation of `n` (R76, R124). -/
theorem decode_run_ofNat {n : Nat} (h : n ≤ 61) (rest : List Byte) :
    decode (BitVec.ofNat 8 (0xC0 + n) :: rest) = .ok (.run n, rest) := by
  have hbyte : (BitVec.ofNat 8 (0xC0 + n)).toNat = 0xC0 + n := by
    rw [BitVec.toNat_ofNat, Nat.mod_eq_of_lt (by omega)]
  rw [decode_run (by omega) (by omega), hbyte, Nat.add_sub_cancel_left]

/-- `DEC` reads back what a packer gave, whatever follows it (R132). -/
theorem decode_encode {i : Instr} (h : i.wf = true) :
    ∃ own, encode i = some own ∧ ∀ rest, decode (own ++ rest) = .ok (i, rest) := by
  cases i with
  | index k =>
    have hk : k < 64 := of_decide_eq_true h
    have hbyte : (BitVec.ofNat 8 k).toNat = k := by
      rw [BitVec.toNat_ofNat, Nat.mod_eq_of_lt (by omega)]
    refine ⟨_, encode_index hk, fun rest => ?_⟩
    rw [List.singleton_append, decode_index (by omega), hbyte]
  | diff dr dg db =>
    obtain ⟨⟨hr, hg⟩, hb⟩ : ((-2 ≤ dr ∧ dr ≤ 1) ∧ (-2 ≤ dg ∧ dg ≤ 1)) ∧ (-2 ≤ db ∧ db ≤ 1) := by
      simpa [Instr.wf] using h
    obtain ⟨b0, hencode, hbyte⟩ := encode_diff hr hg hb
    have er : ((b0.toNat / 16 % 4 : Nat) : Int) - 2 = dr := by omega
    have eg : ((b0.toNat / 4 % 4 : Nat) : Int) - 2 = dg := by omega
    have eb : ((b0.toNat % 4 : Nat) : Int) - 2 = db := by omega
    refine ⟨_, hencode, fun rest => ?_⟩
    rw [List.singleton_append, decode_diff (by omega) (by omega), er, eg, eb]
  | luma dg drg dbg =>
    obtain ⟨⟨hg, hr⟩, hb⟩ : ((-32 ≤ dg ∧ dg ≤ 31) ∧ (-8 ≤ drg ∧ drg ≤ 7)) ∧ (-8 ≤ dbg ∧ dbg ≤ 7) := by
      simpa [Instr.wf] using h
    obtain ⟨b0, b1, hencode, hbyte0, hbyte1⟩ := encode_luma hg hr hb
    have eg : ((b0.toNat % 64 : Nat) : Int) - 32 = dg := by omega
    have er : ((b1.toNat / 16 : Nat) : Int) - 8 = drg := by omega
    have eb : ((b1.toNat % 16 : Nat) : Int) - 8 = dbg := by omega
    refine ⟨_, hencode, fun rest => ?_⟩
    rw [List.cons_append, List.singleton_append, decode_luma (by omega) (by omega), eg, er, eb]
  | run n =>
    have hn : n ≤ 61 := of_decide_eq_true h
    exact ⟨_, encode_run hn, decode_run_ofNat hn⟩
  | rgb r g b => exact ⟨_, rfl, fun _ => rfl⟩
  | rsvFF => exact ⟨_, rfl, fun _ => rfl⟩

/-! ### Encoding what was decoded -/

/-- Every byte list the decoder accepts begins with the encoding of the operation it reads, and `CLASSIFY` of the
first byte gives the kind and the length of that operation (R71, R132). -/
theorem decode_accepts {bs rest : List Byte} {i : Instr} (h : decode bs = .ok (i, rest)) :
    i.wf = true ∧ ∃ b0 tail, encode i = some (b0 :: tail) ∧ bs = b0 :: tail ++ rest ∧
      classify b0 = (i.kind, i.length) := by
  obtain _ | ⟨b0, tail⟩ := bs
  · cases h
  obtain hindex | hdiff | hluma | hrun | rfl | rfl :
      b0.toNat < 64 ∨ (64 ≤ b0.toNat ∧ b0.toNat < 128) ∨ (128 ≤ b0.toNat ∧ b0.toNat < 192) ∨
      (192 ≤ b0.toNat ∧ b0.toNat < 254) ∨ b0 = 0xFE#8 ∨ b0 = 0xFF#8 := by bv_omega
  · cases (decode_index hindex tail).symm.trans h
    refine ⟨decide_eq_true hindex, b0, [], ?_, rfl, ?_⟩
    · rw [encode_index hindex, BitVec.ofNat_toNat, BitVec.setWidth_eq]
    · rw [classify_of_lt_rgb (by omega), if_pos hindex]
      rfl
  · cases (decode_diff hdiff.1 hdiff.2 tail).symm.trans h
    obtain ⟨b, hencode, hb⟩ := encode_diff
      (dr := ((b0.toNat / 16 % 4 : Nat) : Int) - 2) (dg := ((b0.toNat / 4 % 4 : Nat) : Int) - 2)
      (db := ((b0.toNat % 4 : Nat) : Int) - 2) (by omega) (by omega) (by omega)
    obtain rfl : b = b0 := BitVec.eq_of_toNat_eq (by omega)
    refine ⟨?_, b, [], hencode, rfl, ?_⟩
    · simp only [Instr.wf, Bool.and_eq_true, inRange_iff]
      omega
    · rw [classify_of_lt_rgb (by omega), if_neg (by omega), if_pos hdiff.2]
      rfl
  · obtain _ | ⟨b1, tail⟩ := tail
    · cases (decode_luma_truncated hluma.1 hluma.2).symm.trans h
    cases (decode_luma hluma.1 hluma.2 b1 tail).symm.trans h
    obtain ⟨c0, c1, hencode, hc0, hc1⟩ := encode_luma
      (dg := ((b0.toNat % 64 : Nat) : Int) - 32) (drg := ((b1.toNat / 16 : Nat) : Int) - 8)
      (dbg := ((b1.toNat % 16 : Nat) : Int) - 8) (by omega) (by omega) (by omega)
    obtain rfl : c0 = b0 := BitVec.eq_of_toNat_eq (by omega)
    obtain rfl : c1 = b1 := BitVec.eq_of_toNat_eq (by omega)
    refine ⟨?_, c0, [c1], hencode, rfl, classify_luma hluma.1 hluma.2⟩
    simp only [Instr.wf, Bool.and_eq_true, inRange_iff]
    omega
  · cases (decode_run hrun.1 hrun.2 tail).symm.trans h
    have hn : b0.toNat - 192 ≤ 61 := by omega
    have hbyte : BitVec.ofNat 8 (0xC0 + (b0.toNat - 192)) = b0 := by
      rw [show 0xC0 + (b0.toNat - 192) = b0.toNat by omega, BitVec.ofNat_toNat, BitVec.setWidth_eq]
    refine ⟨by simpa [Instr.wf] using hn, b0, [], ?_, rfl, ?_⟩
    · rw [encode_run hn, hbyte]
    · rw [classify_of_lt_rgb (by omega), if_neg (by omega), if_neg (by omega), if_neg (by omega)]
      rfl
  · match tail, h with
    | b1 :: b2 :: b3 :: tail, h =>
      cases h
      exact ⟨rfl, _, _, rfl, rfl, rfl⟩
  · cases h
    exact ⟨rfl, _, _, rfl, rfl, rfl⟩

/-- Settles O46: the packer's bytes are read back, so they begin with a byte that `CLASSIFY` tells apart. -/
theorem decodeInvertsEncode : Obligations.DecodeInvertsEncode := by
  intro i hwf
  obtain ⟨own, hencode, hdecode⟩ := decode_encode hwf
  obtain ⟨-, b0, tail, hencode', -, hclassify⟩ := decode_accepts (hdecode [])
  obtain rfl : own = b0 :: tail := Option.some.inj (hencode.symm.trans hencode')
  have hlen := encode_length hencode
  exact ⟨b0, tail, hencode, hlen ▸ hclassify, hlen.symm, hdecode⟩

/-! ### Refusals -/

/-- `encode` is refused exactly on ill-formed operations (R125). -/
theorem encode_eq_none_iff (i : Instr) : encode i = none ↔ i.wf = false := by
  cases i <;>
    simp only [Instr.wf, encode, packIndex, packDiff, packLuma, packRun, ite_eq_right_iff, reduceCtorEq,
      imp_false, Bool.not_eq_true, decide_eq_false_iff_not]

/-- What a packer gives bytes for is well-formed (R125). -/
theorem wf_of_encode {i : Instr} {own : List Byte} (h : encode i = some own) : i.wf = true := by
  by_contra hwf
  simp [(encode_eq_none_iff i).mpr (by simpa using hwf)] at h

/-- Settles O47: an encoding that begins the list would be read back, and decoding gives one operation. -/
theorem encodeInvertsDecode : Obligations.EncodeInvertsDecode := by
  intro bs rest i hdecode
  obtain ⟨hwf, b0, tail, hencode, hbs, -⟩ := decode_accepts hdecode
  refine ⟨hwf, ⟨_, hencode, hbs⟩, fun j own rest' hj hbegins => ?_⟩
  obtain ⟨own', hj', hreads⟩ := decode_encode (wf_of_encode hj)
  obtain rfl : own = own' := Option.some.inj (hj.symm.trans hj')
  cases (hreads rest').symm.trans (hbegins ▸ hdecode)
  rfl

/-- Settles O48: each packer tests exactly its operand ranges, and `encOps_encodes` for the encoder. -/
theorem packersRefuseOutOfRange : Obligations.PackersRefuseOutOfRange := by
  refine ⟨fun i => ?_, fun dr dg db => ?_, fun dg drg dbg => ?_, fun n => ?_, encode_eq_none_iff,
    fun s c hinv => ?_⟩
  · simp [packIndex, Nat.lt_succ_iff]
  · simp [packDiff, and_assoc]
  · simp [packLuma, and_assoc]
  · simp [packRun]
  · obtain ⟨out, hout, -⟩ := encOps_encodes hinv c
    exact ⟨out, hout⟩

/-- Settles O49: the six words, by evaluation. -/
theorem specWordsDecode : Obligations.SpecWordsDecode := by
  unfold Obligations.SpecWordsDecode
  decide

end Sys2Proof.Machine
end

section
/-! SUPPORT. What an `ENC_PIXEL` step emits and the `RUN` it leaves, by case (R143, R144, R150), and the bounds that follow; what one move of `DEC` in an enabled state is (R171 to R182). -/

namespace Sys2Proof.Machine

/-! ### The cases of an `ENC_PIXEL` step -/

/-- The operations of a pixel step and the `RUN` it leaves: an extended run, kept or flushed at the end of the
pass, or the flush of the run and one operation. -/
theorem encOps_cases (s : State) (c : Color) :
    (c = s.enc.last ∧ s.enc.run.toNat < s.cfg.runCap ∧ s.enc.pixIdx + 1 ≠ s.enc.npix ∧
      encOps s.cfg s.enc c = ([], s.enc.run + 1#6)) ∨
    (c = s.enc.last ∧ s.enc.run.toNat < s.cfg.runCap ∧ s.enc.pixIdx + 1 = s.enc.npix ∧
      encOps s.cfg s.enc c = (flushOps (s.enc.run + 1#6), 0#6)) ∨
    (NotAbsorbed s c ∧ encOps s.cfg s.enc c = (flushOps s.enc.run ++ [encChoose s.enc c], 0#6)) := by
  by_cases habs : c = s.enc.last ∧ s.enc.run.toNat < s.cfg.runCap
  · obtain ⟨rfl, hcap⟩ := habs
    have hdecide := encDecide_absorbed hcap
    by_cases hlast : s.enc.pixIdx + 1 = s.enc.npix
    · refine .inr (.inl ⟨rfl, hcap, hlast, ?_⟩)
      rw [encOps_last _ _ hlast, hdecide, List.nil_append]
    · exact .inl ⟨rfl, hcap, hlast, (encOps_not_last _ _ hlast).trans hdecide⟩
  · exact .inr (.inr ⟨habs, encOps_notAbsorbed habs⟩)

/-- The flush of a run that encodes is its flush bytes; a run that is too long is refused (R124, R125). -/
theorem flushBytes_of_encodeAll {run : BitVec 6} {bytes : List Byte}
    (h : encodeAll (flushOps run) = some bytes) : bytes = flushBytes run.toNat := by
  suffices hrun : run.toNat ≤ 61 from Option.some.inj (h.symm.trans (encodeAll_flushOps hrun))
  obtain rfl | hne := eq_or_ne run 0#6
  · decide
  · rw [flushOps, if_neg hne] at h
    obtain ⟨own, -, hown, -⟩ := encodeAll_cons_some h
    exact of_decide_eq_true (wf_of_encode hown)

/-- The bytes of a pixel step and the `RUN` it leaves, by the same cases. -/
theorem encOps_emits {s : State} {c : Color} {out : List Byte}
    (h : encodeAll (encOps s.cfg s.enc c).1 = some out) :
    (c = s.enc.last ∧ s.enc.run.toNat < s.cfg.runCap ∧ s.enc.pixIdx + 1 ≠ s.enc.npix ∧
      out = [] ∧ (encOps s.cfg s.enc c).2 = s.enc.run + 1#6) ∨
    (c = s.enc.last ∧ s.enc.run.toNat < s.cfg.runCap ∧ s.enc.pixIdx + 1 = s.enc.npix ∧
      out = flushBytes (s.enc.run + 1#6).toNat ∧ (encOps s.cfg s.enc c).2 = 0#6) ∨
    (NotAbsorbed s c ∧ (encOps s.cfg s.enc c).2 = 0#6 ∧
      ∃ bytes, encode (encChoose s.enc c) = some bytes ∧ out = flushBytes s.enc.run.toNat ++ bytes) := by
  obtain ⟨hc, hcap, hlast, hops⟩ | ⟨hc, hcap, hlast, hops⟩ | ⟨hna, hops⟩ := encOps_cases s c <;>
    rw [hops] at h ⊢
  · exact .inl ⟨hc, hcap, hlast, (Option.some.inj h).symm, rfl⟩
  · exact .inr (.inl ⟨hc, hcap, hlast, flushBytes_of_encodeAll h, rfl⟩)
  · obtain ⟨flush, own, hflush, hown, rfl⟩ := encodeAll_append_some h
    obtain ⟨bytes, rest, hbytes, hrest, rfl⟩ := encodeAll_cons_some hown
    cases hrest
    rw [flushBytes_of_encodeAll hflush, List.append_nil]
    exact .inr (.inr ⟨hna, rfl, bytes, hbytes, rfl⟩)

/-- Whatever the state, a pixel step that is not refused emits at most five bytes (R153). -/
theorem encOps_length_le {s : State} {c : Color} {out : List Byte}
    (h : encodeAll (encOps s.cfg s.enc c).1 = some out) : out.length ≤ 5 := by
  obtain ⟨-, -, -, rfl, -⟩ | ⟨-, -, -, rfl, -⟩ | ⟨-, -, bytes, hbytes, rfl⟩ := encOps_emits h
  · simp
  · exact (flushBytes_length_le _).trans (by decide)
  · have hflush := flushBytes_length_le s.enc.run.toNat
    have hop := encode_length_le hbytes
    rw [List.length_append]
    omega

/-- A flush has no more bytes than the run has pixels. -/
theorem flushBytes_length_le_run (n : Nat) : (flushBytes n).length ≤ n := by
  unfold flushBytes
  split
  · exact Nat.zero_le n
  · exact Nat.one_le_iff_ne_zero.mpr ‹_›

/-- The bounds of a pixel step: `RUN` stays at most `RUN_CAP`, the bytes emitted and the run left are at most four
more than the run that was pending (R153), and the end of the pass leaves no run (R150). -/
theorem encOps_bounds {s : State} {c : Color} {out : List Byte} (hcfg : s.cfg.wf = true)
    (h : encodeAll (encOps s.cfg s.enc c).1 = some out) :
    (encOps s.cfg s.enc c).2.toNat ≤ s.cfg.runCap ∧
    out.length + (encOps s.cfg s.enc c).2.toNat ≤ s.enc.run.toNat + 4 ∧
    (s.enc.pixIdx + 1 = s.enc.npix → (encOps s.cfg s.enc c).2 = 0#6) := by
  obtain ⟨-, hcap, hlast, rfl, hrun⟩ | ⟨-, hcap, -, rfl, hrun⟩ | ⟨-, hrun, bytes, hbytes, rfl⟩ :=
    encOps_emits h <;> rw [hrun]
  · rw [toNat_run_succ hcfg hcap]
    exact ⟨hcap, by simp, fun h => absurd h hlast⟩
  · have hflush := flushBytes_length_le (s.enc.run + 1#6).toNat
    exact ⟨Nat.zero_le _, Nat.le_add_left_of_le (hflush.trans (by decide)), fun _ => rfl⟩
  · have hflush := flushBytes_length_le_run s.enc.run.toNat
    have hop := encode_length_le hbytes
    refine ⟨Nat.zero_le _, ?_, fun _ => rfl⟩
    simp only [List.length_append, BitVec.toNat_ofNat, Nat.zero_mod]
    omega

/-! ### What a `DEC_PIXEL` step consumes and leaves pending -/

/-- An operation that was read leaves in `REM` at most 62 (R78, R176). -/
theorem opEffect_rem_le {i : Instr} {s : State} (hwf : i.wf = true) (hrem : s.dec.rem = 0#6) :
    (opEffect i s).2.2.toNat ≤ 62 := by
  cases i with
  | run n =>
    have hn : n ≤ 61 := of_decide_eq_true hwf
    rw [opEffect, toNat_runRemainder (by omega)]
    split <;> omega
  | rsvFF => exact (toNat_runRemainder (by decide : 63 < 64)).trans_le (by decide)
  | _ => simp [opEffect, hrem]

/-- The bytes an operation consumes were there to be read (R52). -/
theorem opEffect_length_le {i : Instr} {s : State} {rest : List Byte}
    (hd : decode s.unread = .ok (i, rest)) :
    (opEffect i s).2.1 ≤ s.decPorts.byteIn.length - s.dec.inPos := by
  obtain ⟨-, b0, tail, hencode, hunread, -⟩ := decode_accepts hd
  have hlen := congrArg List.length hunread
  rw [opEffect_length, ← encode_length hencode, ← List.length_drop]
  simp only [State.unread, List.length_append] at hlen
  omega

/-- In an enabled state with no `START` offered, a move of `DEC` completes a pixel or enters `ERROR` (R171). -/
theorem decMove_enabled {s : State} (hstart : s.decPorts.start = none) (hrun : s.dec.state = .running)
    (hroom : s.pixRoom = true) :
    (∃ len c rem, decMove s = .next (completePixel s len c rem)) ∨
    ∃ code, decMove s = .next (raiseFormatError code s) := by
  by_cases hrem : s.dec.rem = 0#6
  · have hready : DecReady s := ⟨hrun, hrem, hroom⟩
    cases hd : decode s.unread with
    | error reject =>
      cases reject
      exact .inr ⟨_, decMove_truncated hstart hready hd⟩
    | ok read =>
      obtain ⟨i, rest⟩ := read
      have hmove := (decMove_reads hstart hready hd).trans (exec_ready (decode_accepts hd).1 hready)
      unfold opAfter at hmove
      split at hmove
      · exact .inr ⟨_, hmove⟩
      · exact .inl ⟨_, _, _, hmove⟩
  · exact .inl ⟨_, _, _, decMove_pending hstart hrun hroom hrem⟩

end Sys2Proof.Machine
end

section
/-! PROOFS. The invariant of the block: at reset, over every step, and under what the host does; from an invariant state the block never stops. -/

namespace Sys2Proof.Machine

/-! ### The units at reset (R38) -/

theorem encUnit_reset_inv (cfg : Config) : EncUnit.reset.Inv cfg where
  cacheOk := cacheOk_emptyCache
  lastCached := lastCached_emptyCache
  runInRange := Nat.zero_le _
  npixFits := Nat.two_pow_pos _
  pixIdxInRange := Nat.le_refl 0
  runningUnfinished := by simp [EncUnit.reset]
  doneFinished := fun _ => rfl
  noRunOutsidePass := fun _ => rfl
  neverError := by simp [EncUnit.reset]
  outBounded := Nat.le_refl 0

theorem decUnit_reset_inv (cfg : Config) (input : List Byte) : DecUnit.reset.Inv cfg input where
  cacheOk := cacheOk_emptyCache
  lastCached := lastCached_emptyCache
  remInRange := Nat.zero_le _
  npixFits := Nat.two_pow_pos _
  pixIdxInRange := Nat.le_refl 0
  runningUnfinished := by simp [DecUnit.reset]
  doneFinished := fun _ => rfl
  errorUnfinished := by simp [DecUnit.reset]
  errorHasCause := by simp [DecUnit.reset]
  inPosInRange := Nat.zero_le _

/-- Settles O50: both units at reset, and nothing offered. -/
theorem invariantAtReset : Obligations.InvariantAtReset where
  cfgOk := by decide
  enc := encUnit_reset_inv _
  dec := decUnit_reset_inv _ _
  encStartFits := by simp [State.reset]
  decStartFits := by simp [State.reset]

/-! ### The updates of one unit -/

/-- A completed encoder pixel keeps the encoder's invariant. -/
theorem encComplete_enc_inv {s : State} {c : Color} {out : List Byte} (rest : List Color)
    (hcfg : s.cfg.wf = true) (hinv : s.enc.Inv s.cfg) (hrunning : s.enc.state = .running)
    (hout : encodeAll (encOps s.cfg s.enc c).1 = some out) :
    (encComplete s c rest out (encOps s.cfg s.enc c).2).enc.Inv s.cfg := by
  have hlt := hinv.runningUnfinished hrunning
  have hbytes := hinv.outBounded
  obtain ⟨hcap, hlen, hlast⟩ := encOps_bounds hcfg hout
  have hstate := stateAfterPixel_cases hlt
  constructor <;> simp only [encComplete_enc_cache, encComplete_enc_last, encComplete_enc_run,
    encComplete_enc_npix, encComplete_enc_pixIdx, encComplete_enc_state, encComplete_enc_outLen,
    hrunning]
  case cacheOk => exact hinv.cacheOk.cacheUpdate c
  case lastCached => exact lastCached_cacheUpdate _ c
  case runInRange => exact hcap
  case npixFits => exact hinv.npixFits
  case pixIdxInRange => exact hlt
  case outBounded => omega
  all_goals obtain ⟨hnext, hs⟩ | ⟨hnext, hs⟩ := hstate <;> simp [hs, hnext, hlast]

/-- A completed decoder pixel keeps the decoder's invariant, if `REM` and the bytes consumed are in range. -/
theorem completePixel_dec_inv {s : State} {cfg : Config} {input : List Byte} {len : Nat} {rem : BitVec 6}
    (c : Color) (hinv : s.dec.Inv cfg input) (hrunning : s.dec.state = .running) (hrem : rem.toNat ≤ 62)
    (hlen : s.dec.inPos + len ≤ input.length) : (completePixel s len c rem).dec.Inv cfg input := by
  have hlt := hinv.runningUnfinished hrunning
  have hnone : s.dec.errCode = .none := by
    simpa [hrunning] using hinv.errorHasCause
  have hstate := stateAfterPixel_cases hlt
  constructor <;> simp only [completePixel_dec_cache, completePixel_dec_last, completePixel_dec_rem,
    completePixel_dec_npix, completePixel_dec_pixIdx, completePixel_dec_inPos, completePixel_dec_state,
    completePixel_dec_errCode, hrunning]
  case cacheOk => exact hinv.cacheOk.cacheUpdate c
  case lastCached => exact lastCached_cacheUpdate _ c
  case remInRange => exact hrem
  case npixFits => exact hinv.npixFits
  case pixIdxInRange => exact hlt
  case inPosInRange => exact hlen
  all_goals obtain ⟨hnext, hs⟩ | ⟨hnext, hs⟩ := hstate <;> simp [hs, hnext, hnone]

/-- An error entered from `RUNNING` keeps the decoder's invariant (R203, R204). -/
theorem raiseFormatError_dec_inv {s : State} {cfg : Config} {input : List Byte} {code : ErrCode}
    (hinv : s.dec.Inv cfg input) (hrunning : s.dec.state = .running) (hcode : code ≠ .none) :
    (raiseFormatError code s).dec.Inv cfg input where
  cacheOk := hinv.cacheOk
  lastCached := hinv.lastCached
  remInRange := hinv.remInRange
  npixFits := hinv.npixFits
  pixIdxInRange := hinv.pixIdxInRange
  runningUnfinished := by simp
  doneFinished := by simp
  errorUnfinished := fun _ => hinv.runningUnfinished hrunning
  errorHasCause := by simp [hcode]
  inPosInRange := hinv.inPosInRange

/-! ### The moves -/

theorem encMove_keeps_inv {s t : State} (hinv : s.Inv) (h : encMove s = .next t) : t.Inv := by
  obtain ⟨n, -, hfits, rfl⟩ | ⟨-, rfl⟩ | ⟨-, hrun, c, rest, out, -, hout, -, rfl⟩ := encMove_next h
  · exact ⟨hinv.cfgOk, encStart_enc_inv (of_decide_eq_true hfits), hinv.dec, by simp, hinv.decStartFits⟩
  · exact hinv
  · exact ⟨hinv.cfgOk, encComplete_enc_inv rest hinv.cfgOk hinv.enc hrun hout, hinv.dec,
      hinv.encStartFits, hinv.decStartFits⟩

/-- What a pixel step of `DEC` leaves in the unit meets the unit's invariant. -/
theorem decMove_keeps_dec_inv {s t : State} (hinv : s.dec.Inv s.cfg s.decPorts.byteIn)
    (hstart : s.decPorts.start = none) (h : decMove s = .next t) :
    t.dec.Inv s.cfg s.decPorts.byteIn := by
  obtain ⟨o, ho, -⟩ | ⟨-, -, rfl⟩ | ⟨-, he, hrem, rfl⟩ | ⟨-, hready, -, rfl⟩ |
    ⟨-, hready, i, rest, hd, hexec⟩ := decMove_next h
  · simp [hstart] at ho
  · exact hinv
  · have hpred : (s.dec.rem - 1#6).toNat = s.dec.rem.toNat - 1 := by bv_omega
    refine completePixel_dec_inv _ hinv ((decEnabled_iff s).mp he).1 ?_ hinv.inPosInRange
    rw [hpred]
    exact (Nat.sub_le _ _).trans hinv.remInRange
  · exact raiseFormatError_dec_inv hinv hready.running (by decide)
  · obtain ⟨-, rfl⟩ | ⟨-, rfl⟩ | ⟨-, -, -, rfl⟩ := exec_next hexec
    · exact hinv
    · have hlen := opEffect_length_le hd
      have hpos := hinv.inPosInRange
      exact completePixel_dec_inv _ hinv hready.running
        (opEffect_rem_le (decode_accepts hd).1 hready.noRun) (by omega)
    · exact raiseFormatError_dec_inv hinv hready.running (by decide)

theorem decMove_keeps_inv {s t : State} (hinv : s.Inv) (h : decMove s = .next t) : t.Inv := by
  cases hstart : s.decPorts.start with
  | some o =>
    have hfits := hinv.decStartFits o hstart
    cases (decMove_start hstart hfits).symm.trans h
    exact ⟨hinv.cfgOk, hinv.enc, decStart_dec_inv (of_decide_eq_true hfits), hinv.encStartFits, by simp⟩
  | none =>
    have hdec := decMove_keeps_dec_inv hinv.dec hstart h
    obtain ⟨o, ho, -⟩ | rfl | ⟨-, len, c, rem, rfl⟩ | ⟨-, code, rfl⟩ := decMove_update h
    · simp [hstart] at ho
    · exact hinv
    all_goals exact ⟨hinv.cfgOk, hinv.enc, hdec, hinv.encStartFits, hinv.decStartFits⟩

theorem passTurn_inv {s : State} (hinv : s.Inv) : (passTurn s).Inv :=
  ⟨hinv.cfgOk, hinv.enc, hinv.dec, hinv.encStartFits, hinv.decStartFits⟩

/-- Settles O51: hardware reset gives units that meet the invariant, and each unit's move keeps it. -/
theorem stepKeepsInvariant : Obligations.StepKeepsInvariant := by
  intro s t hinv h
  obtain ⟨-, hs⟩ | ⟨-, -, hs⟩ | ⟨-, -, hs⟩ := step_eq s <;> rw [hs] at h
  · cases h
    exact ⟨hinv.cfgOk, encUnit_reset_inv _, decUnit_reset_inv _ _, hinv.encStartFits, hinv.decStartFits⟩
  · exact encMove_keeps_inv (passTurn_inv hinv) h
  · exact decMove_keeps_inv (passTurn_inv hinv) h

/-! ### The block never stops (R154, R206, R213) -/

/-- A move of `DEC` takes a `START` whose count fits, waits, completes a pixel, or enters `ERROR`. -/
theorem exists_decMove_next {s : State} (hinv : s.Inv) : ∃ t, decMove s = .next t := by
  cases hstart : s.decPorts.start with
  | some o => exact ⟨_, decMove_start hstart (hinv.decStartFits o hstart)⟩
  | none =>
    by_cases henabled : s.decEnabled = true
    · obtain ⟨hrun, hroom⟩ := (decEnabled_iff s).mp henabled
      obtain ⟨_, _, _, hmove⟩ | ⟨_, hmove⟩ := decMove_enabled hstart hrun hroom <;> exact ⟨_, hmove⟩
    · exact ⟨s, decMove_waits hstart (by simpa using henabled)⟩

/-- Settles O52: reset always answers, and so does each unit's move under the invariant. -/
theorem invariantStatesNeverStop : Obligations.InvariantStatesNeverStop := by
  intro s hinv
  obtain ⟨-, hs⟩ | ⟨-, -, hs⟩ | ⟨-, -, hs⟩ := step_eq s
  · exact ⟨_, hs⟩
  · obtain ⟨t, ht⟩ := exists_encMove_next (passTurn_inv hinv)
    exact ⟨t, hs.trans ht⟩
  · obtain ⟨t, ht⟩ := exists_decMove_next (passTurn_inv hinv)
    exact ⟨t, hs.trans ht⟩

/-! ### The host (R35, R211) -/

/-- Settles O53: a host action writes no register and not the input of the pass, and offers a `START` only with a
count that fits. -/
theorem hostActionsKeepInvariant : Obligations.HostActionsKeepInvariant := by
  intro a s hinv
  have ⟨hcfg, henc, hdec, hencStart, hdecStart⟩ := hinv
  cases a with
  | offerEncStart npix =>
    by_cases hfits : countFits s.cfg npix = true
    · simp only [hostAct, if_pos hfits]
      exact ⟨hcfg, henc, hdec, fun n hn => Option.some.inj hn ▸ hfits, hdecStart⟩
    · simpa only [hostAct, if_neg hfits] using hinv
  | offerDecStart npix input =>
    by_cases hfits : countFits s.cfg npix = true
    · simp only [hostAct, if_pos hfits]
      exact ⟨hcfg, henc, hdec, hencStart, fun o ho => Option.some.inj ho ▸ hfits⟩
    · simpa only [hostAct, if_neg hfits] using hinv
  | _ => exact ⟨hcfg, henc, hdec, hencStart, hdecStart⟩

end Sys2Proof.Machine
end

section
/-! PROOFS. The block's step and what it leaves alone: when an operation acts and its frame (R171, R173, R180), the order of priority (R210), the cache (R24), the counts and the input (R29, R63), the channels (R51, R53), and the order of the units' moves (R62). -/

namespace Sys2Proof.Machine

/-! ### Operations -/

/-- Settles O7: the frame of every meaning, outside a state that reads the operation and on an ill-formed one. -/
theorem operationActsOnlyWhenRead : Obligations.OperationActsOnlyWhenRead := by
  refine ⟨fun s i hwf hready => ?_, fun s i hwf => ?_⟩ <;> rw [exec_eq]
  · exact whenRead_not_ready hwf hready
  · simp [whenRead, hwf]

/-- Settles O8: nothing, a completed pixel or the error entry, each with its frame. -/
theorem operationsKeepTheRest : Obligations.OperationsKeepTheRest := by
  intro s t i h
  obtain ⟨-, rfl⟩ | ⟨hready, rfl⟩ | ⟨-, -, -, rfl⟩ := exec_next h
  · exact ⟨⟨rfl, rfl, rfl, rfl, rfl, rfl, rfl, rfl⟩, fun _ _ => rfl, .inl rfl⟩
  · have hdone := decPixelDone_completePixel hready.running (opEffect i s).2.1 (opEffect i s).1
      (opEffect i s).2.2
    exact ⟨hdone.rest, hdone.otherSlots, .inr hdone.pixel⟩
  · have herr := decErrorEntered_raiseFormatError s .reservedOp
    exact ⟨herr.rest, fun _ _ => rfl, .inl herr.pixel⟩

/-! ### The block's step (R210) -/

theorem passTurn_of_enc {s : State} (h : s.turn = .enc) : passTurn s = { s with turn := .dec } := by
  simp [passTurn, h]

theorem passTurn_of_dec {s : State} (h : s.turn = .dec) : passTurn s = { s with turn := .enc } := by
  simp [passTurn, h]

/-- Settles O9: the step is a move of `DEC` with the turn passed, and that move reads the operation. -/
theorem stepRunsDecodedOperation : Obligations.StepRunsDecodedOperation := by
  intro s i rest hrst hturn hstart hready hdecode
  have hready' : DecReady (passTurn s) := ⟨hready.running, hready.noRun, hready.room⟩
  rw [step_dec hrst hturn, decMove_reads (s := passTurn s) hstart hready' hdecode, passTurn_of_dec hturn]

/-- Settles O35: reset, then the move of the unit whose turn it is, and in a move the `START`. -/
theorem resetThenStartThenPixel : Obligations.ResetThenStartThenPixel := by
  refine ⟨fun _ => step_reset, fun s hrst hturn => ?_, fun s hrst hturn => ?_,
    fun _ _ => encMove_start, fun _ _ => decMove_start⟩
  · rw [step_enc hrst hturn, passTurn_of_enc hturn]
  · rw [step_dec hrst hturn, passTurn_of_dec hturn]

/-! ### Caches, counts and the input -/

/-- Settles O44: hardware reset and a `START` clear, a completed pixel updates, and nothing else writes a cache. -/
theorem cacheWrittenOnlyByClearAndUpdate : Obligations.CacheWrittenOnlyByClearAndUpdate := by
  intro s t h
  obtain ⟨-, hs⟩ | ⟨-, -, hs⟩ | ⟨-, -, hs⟩ := step_eq s <;> rw [hs] at h
  · cases h
    exact ⟨.inr (.inl rfl), .inr (.inl rfl)⟩
  · refine ⟨?_, .inl (congrArg DecUnit.cache (encMove_keeps_dec h).1)⟩
    obtain ⟨n, -, -, rfl⟩ | ⟨-, rfl⟩ | ⟨-, -, c, rest, out, -, -, -, rfl⟩ := encMove_next h
    · exact .inr (.inl rfl)
    · exact .inl rfl
    · exact .inr (.inr rfl)
  · refine ⟨.inl (congrArg EncUnit.cache (decMove_keeps_enc h).1), ?_⟩
    obtain ⟨o, -, rfl⟩ | rfl | ⟨-, len, c, rem, rfl⟩ | ⟨-, code, rfl⟩ := decMove_update h
    · exact .inr (.inl rfl)
    · exact .inl rfl
    · exact .inr (.inr rfl)
    · exact .inl rfl

theorem encMove_npix {s t : State} (h : encMove s = .next t) :
    s.encPorts.start ≠ none ∨ t.enc.npix = s.enc.npix := by
  obtain ⟨n, hn, -, -⟩ | ⟨-, rfl⟩ | ⟨-, -, c, rest, out, -, -, -, rfl⟩ := encMove_next h
  · exact .inl (by simp [hn])
  · exact .inr rfl
  · exact .inr rfl

theorem decMove_npix_byteIn {s t : State} (h : decMove s = .next t) :
    s.decPorts.start ≠ none ∨ (t.dec.npix = s.dec.npix ∧ t.decPorts.byteIn = s.decPorts.byteIn) := by
  obtain ⟨o, ho, -⟩ | rfl | ⟨-, len, c, rem, rfl⟩ | ⟨-, code, rfl⟩ := decMove_update h
  · exact .inl (by simp [ho])
  all_goals exact .inr ⟨rfl, rfl⟩

/-- No host action writes the input list of the pass (R63). -/
theorem hostAct_byteIn (a : HostAction) (s : State) :
    (hostAct a s).decPorts.byteIn = s.decPorts.byteIn := by
  cases a with
  | offerEncStart | offerDecStart =>
    simp only [hostAct]
    split <;> rfl
  | _ => rfl

/-- Settles O57: each unit's counts and input are written by its own `START` alone. -/
theorem countsAndInputFixedDuringAPass : Obligations.CountsAndInputFixedDuringAPass := by
  refine ⟨fun a s => ⟨hostAct_byteIn a s, by rw [hostAct_enc], by rw [hostAct_dec], hostAct_cfg a s⟩,
    fun s t h => ?_⟩
  obtain ⟨hrst, hs⟩ | ⟨-, -, hs⟩ | ⟨-, -, hs⟩ := step_eq s <;> rw [hs] at h
  · cases h
    exact ⟨rfl, .inl hrst, .inl hrst, .inr rfl⟩
  · obtain ⟨hdec, hports⟩ := encMove_keeps_dec h
    exact ⟨(congrArg State.cfg (encMove_frame h) :), .inr (encMove_npix (s := passTurn s) h),
      .inr (.inr (congrArg DecUnit.npix hdec)), .inr (congrArg DecPorts.byteIn hports)⟩
  · have hkept := decMove_npix_byteIn (s := passTurn s) h
    exact ⟨(congrArg State.cfg (decMove_frame h) :),
      .inr (.inr (congrArg EncUnit.npix (decMove_keeps_enc h).1)),
      .inr (hkept.imp_right And.left), hkept.imp_right And.right⟩

/-! ### Channels (R51, R53) -/

/-- A move of `ENC` appends to `byte_out` and takes at most the head of `pix_in`. -/
theorem encMove_channels {s t : State} (h : encMove s = .next t) :
    (∃ out, t.encPorts.byteOut = s.encPorts.byteOut ++ out) ∧
    (t.encPorts.pixIn = s.encPorts.pixIn ∨ ∃ c, s.encPorts.pixIn = c :: t.encPorts.pixIn) := by
  obtain ⟨n, -, -, rfl⟩ | ⟨-, rfl⟩ | ⟨-, -, c, rest, out, hp, -, -, rfl⟩ := encMove_next h
  · exact ⟨⟨[], (List.append_nil _).symm⟩, .inl rfl⟩
  · exact ⟨⟨[], (List.append_nil _).symm⟩, .inl rfl⟩
  · exact ⟨⟨out, rfl⟩, .inr ⟨c, hp⟩⟩

/-- A move of `DEC` appends to `pix_out` the new `LAST` or nothing. -/
theorem decMove_pixOut {s t : State} (h : decMove s = .next t) :
    t.decPorts.pixOut = s.decPorts.pixOut ∨ t.decPorts.pixOut = s.decPorts.pixOut ++ [t.dec.last] := by
  obtain ⟨o, -, rfl⟩ | rfl | ⟨-, len, c, rem, rfl⟩ | ⟨-, code, rfl⟩ := decMove_update h
  · exact .inl rfl
  · exact .inl rfl
  · exact .inr rfl
  · exact .inl rfl

/-- The channels that host actions other than a channel's own leave alone. -/
theorem hostAct_channels (a : HostAction) (s : State) :
    (a ≠ .takeByte → (hostAct a s).encPorts.byteOut = s.encPorts.byteOut) ∧
    (a ≠ .takePixel → (hostAct a s).decPorts.pixOut = s.decPorts.pixOut) ∧
    ((∀ c, a ≠ .offerPixel c) → (hostAct a s).encPorts.pixIn = s.encPorts.pixIn) := by
  cases a with
  | offerEncStart | offerDecStart =>
    simp only [hostAct]
    split <;> simp
  | _ => simp [hostAct]

/-- Settles O56: the host's side action by action, the block's side move by move. -/
theorem channelsAreFirstInFirstOut : Obligations.ChannelsAreFirstInFirstOut := by
  refine ⟨fun s b rest h => ?_, fun s c rest h => ?_, fun s => ⟨fun h => ?_, fun h => ?_⟩,
    fun _ _ => rfl, hostAct_channels, fun s t h => ?_⟩
  · simp [hostAct, h]
  · simp [hostAct, h]
  · rw [hostAct, h, List.tail_nil, ← h]
  · rw [hostAct, h, List.tail_nil, ← h]
  · obtain ⟨-, hs⟩ | ⟨-, -, hs⟩ | ⟨-, -, hs⟩ := step_eq s <;> rw [hs] at h
    · cases h
      exact ⟨⟨[], (List.append_nil _).symm⟩, .inl rfl, .inl rfl⟩
    · obtain ⟨hbytes, hpixels⟩ := encMove_channels h
      exact ⟨hbytes, hpixels, .inl (congrArg DecPorts.pixOut (encMove_keeps_dec h).2)⟩
    · have hports : t.encPorts = s.encPorts := (decMove_keeps_enc h).2
      exact ⟨⟨[], by rw [hports, List.append_nil]⟩, .inl (by rw [hports]), decMove_pixOut (s := passTurn s) h⟩

/-! ### The order of the units' moves (R20, R62) -/

/-- Settles O55: each move is the same with the other unit replaced, so each can be made where the other was
already made. -/
theorem unitMovesCommute : Obligations.UnitMovesCommute := by
  intro s t u henc hdec
  have ht : t = s.withEnc t.enc t.encPorts := encMove_frame henc
  have hu : u = t.withDec u.dec u.decPorts := decMove_frame hdec
  have hs : s = t.withEnc s.enc s.encPorts := by rw [ht]; rfl
  have hswap : u.withEnc s.enc s.encPorts = s.withDec u.dec u.decPorts := by rw [hu, ht]; rfl
  refine ⟨s.withDec u.dec u.decPorts, ?_, ?_⟩
  · rw [← hswap, hs]
    exact decMove_withEnc s.enc s.encPorts hdec
  · rw [hu]
    exact encMove_withDec u.dec u.decPorts henc

end Sys2Proof.Machine
end

section
/-! PROOFS. The color cache: the slot index in any adder width (R101), and what a cleared cache hits (R111). -/

namespace Sys2Proof.Machine

/-- Settles O39: 64 divides `2 ^ w`, so the slot index does not see the adder's width. -/
theorem hashIgnoresAdderWidth : Obligations.HashIgnoresAdderWidth := fun c _ hw =>
  ⟨Nat.mod_mod_of_dvd _ (pow_dvd_pow 2 hw), hash_lt c⟩

/-- A cleared cache misses exactly the colors that are not black (R107, R111). -/
theorem misses_emptyCache_iff (c : Color) : Misses emptyCache c ↔ c ≠ black := by
  rw [Misses, cacheSlot_emptyCache, ne_comm, Ne, packColor_eq_zero_iff]

/-- Settles O43: every slot of a cleared cache holds packed black; an `UPDATE` matters to black in slot 0 alone. -/
theorem clearedCacheHitsOnlyBlack : Obligations.ClearedCacheHitsOnlyBlack := by
  have hclear : ∀ c : Color, (lookup cacheClear c).1 = true ↔ c = black := fun c => by
    rw [← not_iff_not, Bool.not_eq_true, lookup_eq_false_iff, cacheClear_eq, misses_emptyCache_iff]
  refine ⟨Prod.ext ((hclear black).mpr rfl) hash_black, hclear, fun m c hblack => ?_⟩
  by_cases hslot : hash c = 0
  · rw [lookup_cacheUpdate_hit_iff m (hash_black.trans hslot.symm)]
    simp [hslot, eq_comm]
  · have hne : hash black ≠ hash c := by
      rw [hash_black]
      exact Ne.symm hslot
    rw [lookup_hit_iff] at hblack ⊢
    rw [cacheSlot_cacheUpdate_ne m c _ hne]
    exact iff_of_true hblack (.inr hslot)

end Sys2Proof.Machine
end

section
/-! PROOFS. The encoder: its output bounds (R153), what it emits and never emits (R152), long runs (R151), the first pixel of a pass (R155). -/

namespace Sys2Proof.Machine

/-! ### Bounds (R149, R153) -/

/-- Settles O25: a move that changes `PIX_IDX` with no `START` offered completed a pixel; the bound over the pass
is part of the invariant. -/
theorem encoderStepEmitsAtMostFiveBytes : Obligations.EncoderStepEmitsAtMostFiveBytes := by
  constructor
  · intro s t hstart hmove hidx
    obtain ⟨n, hn, -⟩ | ⟨-, rfl⟩ | ⟨-, hrun, c, rest, out, hp, hout, -, rfl⟩ := encMove_next hmove
    · simp [hstart] at hn
    · exact absurd rfl hidx
    · exact ⟨c, rest, out, _, hp, encOps_length_le hout, encPixelDone_encComplete hrun ..⟩
  · intro s t hinv hmove
    exact (Nat.le_add_right _ _).trans (encMove_keeps_inv hinv hmove).enc.outBounded

/-! ### Operations that are emitted (R152) -/

/-- What the encoder guarantees of an operation it emits for the pixel `c`. -/
structure LegalOp (s : State) (c : Color) (i : Instr) : Prop where
  wf : i.wf = true
  notReserved : i ≠ .rsvFF
  runInRange : ∀ n, i = .run n → 1 ≤ n ∧ n ≤ s.cfg.runCap
  indexHits : ∀ k, i = .index k → cacheSlot s.enc.cache k = packColor c

/-- A flush emits nothing, or the run operation of a positive count. -/
theorem legalOp_of_mem_flushOps {s : State} {i : Instr} {run : BitVec 6} (c : Color)
    (hcfg : s.cfg.wf = true) (hrun : run.toNat ≤ s.cfg.runCap) (h : i ∈ flushOps run) : LegalOp s c i := by
  have hmax := ((Config.wf_iff s.cfg).mp hcfg).2
  by_cases hzero : run = 0#6
  · simp [hzero] at h
  · rw [flushOps, if_neg hzero, List.mem_singleton] at h
    subst h
    have hpos : 1 ≤ run.toNat := by bv_omega
    exact ⟨decide_eq_true (hrun.trans hmax), by simp, fun n hn => Instr.run.inj hn ▸ ⟨hpos, hrun⟩, by simp⟩

/-- The operation chosen is none of `RUN` and `RSV_FF`, and `INDEX` is chosen on a hit (R145 to R148). -/
theorem legalOp_encChoose (s : State) (c : Color) : LegalOp s c (encChoose s.enc c) := by
  have hwf := encChoose_wf s.enc c
  obtain ⟨hhit, h⟩ | ⟨_, _, _, -, h⟩ | ⟨_, _, _, -, h⟩ | h := encChoose_cases s.enc c <;> rw [h] at hwf ⊢
  · exact ⟨hwf, by simp, by simp, fun k hk => Instr.index.inj hk ▸ not_not.mp hhit⟩
  all_goals exact ⟨hwf, by simp, by simp, by simp⟩

theorem legalOp_of_mem_encOps {s : State} {c : Color} {i : Instr} (hinv : s.Inv)
    (h : i ∈ (encOps s.cfg s.enc c).1) : LegalOp s c i := by
  obtain ⟨-, -, -, hops⟩ | ⟨-, hcap, -, hops⟩ | ⟨-, hops⟩ := encOps_cases s c <;> rw [hops] at h
  · simp at h
  · exact legalOp_of_mem_flushOps c hinv.cfgOk ((toNat_run_succ hinv.cfgOk hcap).trans_le hcap) h
  · obtain hflush | hop := List.mem_append.mp h
    · exact legalOp_of_mem_flushOps c hinv.cfgOk hinv.enc.runInRange hflush
    · rw [List.mem_singleton.mp hop]
      exact legalOp_encChoose s c

/-- Settles O27: the first bytes `0xFF` and `0xC0` would be read back as `RSV_FF` and `RUN 0`. -/
theorem encoderOutputIsLegal : Obligations.EncoderOutputIsLegal := by
  intro s c i hinv hmem
  obtain ⟨hwf, hnotReserved, hrun, hindex⟩ := legalOp_of_mem_encOps hinv hmem
  obtain ⟨b0, tail, hencode, -, -, hdecode⟩ := decodeInvertsEncode i hwf
  refine ⟨hwf, hnotReserved, hrun, hindex, b0, tail, hencode, ?_, ?_⟩
  · rintro rfl
    have hread : decode (0xFF#8 :: tail ++ []) = .ok (.rsvFF, tail ++ []) := rfl
    exact hnotReserved (congrArg Prod.fst (Except.ok.inj (hread.symm.trans (hdecode [])))).symm
  · rintro rfl
    have hread : decode (0xC0#8 :: tail ++ []) = .ok (.run 0, tail ++ []) :=
      decode_run_ofNat (Nat.zero_le 61) _
    have hzero : Instr.run 0 = i := congrArg Prod.fst (Except.ok.inj (hread.symm.trans (hdecode [])))
    exact absurd (hrun 0 hzero.symm).1 (by decide)

/-! ### The first pixel of a pass (R155) -/

/-- Settles O29: `LAST` is black and the run empty; a cleared cache misses every other color. -/
theorem firstPixelOfAPass : Obligations.FirstPixelOfAPass := by
  intro s npix c hcfg
  constructor
  · rintro rfl
    exact encDecide_absorbed ((Config.wf_iff s.cfg).mp hcfg).1
  · intro hne
    have hmiss : Misses (encStart npix s).enc.cache c := (misses_emptyCache_iff c).mpr hne
    have hna : NotAbsorbed (encStart npix s) c := fun h => hne h.1
    refine ⟨(lookup_eq_false_iff _ _).mpr hmiss, _, encDecide_notAbsorbed hna, ?_⟩
    obtain ⟨hhit, -⟩ | ⟨_, _, _, -, h⟩ | ⟨_, _, _, -, h⟩ | h := encChoose_cases (encStart npix s).enc c
    · exact absurd hmiss hhit
    all_goals simp [h, Instr.kind]

/-! ### Long runs (R151) -/

/-- The run byte of `RUN_CAP` and the index of `c`, `q` times. -/
def runGroups (cap : Nat) (c : Color) (q : Nat) : List Byte :=
  (List.replicate q [BitVec.ofNat 8 (0xC0 + cap), BitVec.ofNat 8 (hash c)]).flatten

@[simp] theorem runGroups_zero (cap : Nat) (c : Color) : runGroups cap c 0 = [] := rfl

theorem runGroups_one (cap : Nat) (c : Color) :
    runGroups cap c 1 = [BitVec.ofNat 8 (0xC0 + cap), BitVec.ofNat 8 (hash c)] := rfl

theorem runGroups_add (cap : Nat) (c : Color) (p q : Nat) :
    runGroups cap c (p + q) = runGroups cap c p ++ runGroups cap c q := by
  rw [runGroups, List.replicate_add, List.flatten_append]
  rfl

/-- `t` is `s` after `m` more repeats of `LAST`: the pending run and the repeats together are cut into groups of
`RUN_CAP + 1`, and the remainder is pending, or flushed at the end of the pass. -/
structure RunsCut (s t : State) (m : Nat) : Prop where
  openPass : s.enc.pixIdx + m < s.enc.npix →
    t.enc.run.toNat = (s.enc.run.toNat + m) % (s.cfg.runCap + 1) ∧
    t.encPorts.byteOut = s.encPorts.byteOut ++
      runGroups s.cfg.runCap s.enc.last ((s.enc.run.toNat + m) / (s.cfg.runCap + 1))
  endOfPass : s.enc.pixIdx + m = s.enc.npix → t.enc.run.toNat = 0 ∧
    t.encPorts.byteOut = s.encPorts.byteOut ++
      runGroups s.cfg.runCap s.enc.last ((s.enc.run.toNat + m) / (s.cfg.runCap + 1)) ++
      flushBytes ((s.enc.run.toNat + m) % (s.cfg.runCap + 1))

/-- A repeat of `LAST` completes `k` groups, none or one, and leaves `r` repeats, which the last pixel of the pass
flushes. -/
theorem repeat_emits {s : State} {out : List Byte} (hinv : s.Inv)
    (h : encodeAll (encOps s.cfg s.enc s.enc.last).1 = some out) :
    ∃ k r, s.enc.run.toNat + 1 = r + k * (s.cfg.runCap + 1) ∧ r ≤ s.cfg.runCap ∧
      (s.enc.pixIdx + 1 ≠ s.enc.npix →
        out = runGroups s.cfg.runCap s.enc.last k ∧ (encOps s.cfg s.enc s.enc.last).2.toNat = r) ∧
      (s.enc.pixIdx + 1 = s.enc.npix →
        out = runGroups s.cfg.runCap s.enc.last k ++ flushBytes r ∧
          (encOps s.cfg s.enc s.enc.last).2.toNat = 0) := by
  obtain ⟨-, hcap, hlast, rfl, hrun⟩ | ⟨-, hcap, hlast, rfl, hrun⟩ | ⟨hna, hrun, bytes, hbytes, rfl⟩ :=
    encOps_emits h <;> rw [hrun]
  · exact ⟨0, _, by simp, hcap, fun _ => ⟨rfl, toNat_run_succ hinv.cfgOk hcap⟩, fun h => absurd h hlast⟩
  · exact ⟨0, _, by simp, hcap, fun h => absurd hlast h,
      fun _ => ⟨by rw [toNat_run_succ hinv.cfgOk hcap]; rfl, rfl⟩⟩
  · have hpos := ((Config.wf_iff s.cfg).mp hinv.cfgOk).1
    have hfull : s.enc.run.toNat = s.cfg.runCap :=
      Nat.le_antisymm hinv.enc.runInRange (not_lt.mp fun hlt => hna ⟨rfl, hlt⟩)
    rw [encChoose_hit (fun hmiss => hmiss hinv.enc.lastCached), encode_index (hash_lt _)] at hbytes
    cases hbytes
    have hout : flushBytes s.enc.run.toNat ++ [BitVec.ofNat 8 (hash s.enc.last)] =
        runGroups s.cfg.runCap s.enc.last 1 := by
      rw [flushBytes_pos (by omega), hfull, runGroups_one, List.singleton_append]
    exact ⟨1, 0, by omega, Nat.zero_le _, fun _ => ⟨hout, rfl⟩,
      fun _ => ⟨by rw [hout, flushBytes_zero, List.append_nil], rfl⟩⟩

/-- A repeat that ends the pass. -/
theorem RunsCut.of_last {s t : State} {rest : List Color} {k r : Nat}
    (hdone : EncPixelDone s t s.enc.last rest (runGroups s.cfg.runCap s.enc.last k ++ flushBytes r) 0)
    (hlast : s.enc.pixIdx + 1 = s.enc.npix) (hr : r ≤ s.cfg.runCap)
    (hsum : s.enc.run.toNat + 1 = r + k * (s.cfg.runCap + 1)) : RunsCut s t 1 where
  openPass h := absurd hlast h.ne
  endOfPass _ := by
    rw [hsum, Nat.add_mul_div_right _ _ (Nat.succ_pos _), Nat.add_mul_mod_self_right,
      Nat.div_eq_of_lt (Nat.lt_succ_of_le hr), Nat.mod_eq_of_lt (Nat.lt_succ_of_le hr), Nat.zero_add,
      List.append_assoc]
    exact ⟨hdone.run, hdone.bytes⟩

/-- A repeat before `m` more of them. -/
theorem RunsCut.of_next {s t₁ t : State} {rest : List Color} {k r m : Nat}
    (hdone : EncPixelDone s t₁ s.enc.last rest (runGroups s.cfg.runCap s.enc.last k) r)
    (hsum : s.enc.run.toNat + 1 = r + k * (s.cfg.runCap + 1)) (h : RunsCut t₁ t m) :
    RunsCut s t (m + 1) := by
  obtain ⟨hopen, hend⟩ := h
  have hcount : s.enc.run.toNat + (m + 1) = r + m + k * (s.cfg.runCap + 1) := by omega
  rw [hdone.pixIdx, hdone.npix, hdone.run, hdone.cfg, hdone.bytes, hdone.last,
    List.append_assoc s.encPorts.byteOut, ← runGroups_add] at hopen hend
  constructor <;>
    rw [hcount, Nat.add_mul_div_right _ _ (Nat.succ_pos _), Nat.add_mul_mod_self_right, Nat.add_comm _ k]
  · exact fun h => hopen (by omega)
  · exact fun h => hend (by omega)

theorem byteRoom_of_unbounded {s : State} (h : s.cfg.byteOutCap = none) (n : Nat) : s.byteRoom n = true := by
  simp [State.byteRoom, hasRoom, h]

/-- Repeats of `LAST`, whatever run is pending before them, are cut at `RUN_CAP`. -/
theorem exists_runsCut (m : Nat) {s : State} (hinv : s.Inv) (hrun : s.enc.state = .running)
    (hstart : s.encPorts.start = none) (hcap : s.cfg.byteOutCap = none)
    (hp : s.encPorts.pixIn = List.replicate m s.enc.last) (hfits : s.enc.pixIdx + m ≤ s.enc.npix) :
    ∃ t, moves encMove m s = .next t ∧ RunsCut s t m := by
  induction m generalizing s with
  | zero =>
    have hlt := hinv.enc.runningUnfinished hrun
    have hle := Nat.lt_succ_of_le hinv.enc.runInRange
    refine ⟨s, rfl, fun _ => ?_, fun h => absurd h hlt.ne⟩
    simp [Nat.mod_eq_of_lt hle, Nat.div_eq_of_lt hle]
  | succ m ih =>
    obtain ⟨out, hout, -⟩ := encOps_encodes hinv s.enc.last
    have hmove := encMove_pixel hstart (hp.trans List.replicate_succ) hrun hout
      (byteRoom_of_unbounded hcap _)
    have hdone := encPixelDone_encComplete hrun s.enc.last (List.replicate m s.enc.last) out
      (encOps s.cfg s.enc s.enc.last).2
    obtain ⟨k, r, hsum, hr, hnotLast, hisLast⟩ := repeat_emits hinv hout
    rw [moves_succ m hmove]
    by_cases hlast : s.enc.pixIdx + 1 = s.enc.npix
    · obtain ⟨rfl, hzero⟩ := hisLast hlast
      obtain rfl : m = 0 := by omega
      exact ⟨_, rfl, .of_last (hzero ▸ hdone) hlast hr hsum⟩
    · obtain ⟨rfl, rfl⟩ := hnotLast hlast
      have hfits' := hdone.pixIdx ▸ hdone.npix ▸ (show s.enc.pixIdx + 1 + m ≤ s.enc.npix by omega)
      obtain ⟨t, ht, hcut⟩ := ih (encMove_keeps_inv hinv hmove) (hdone.state.trans (if_neg hlast)) hstart
        hcap rfl hfits'
      exact ⟨t, ht, .of_next hdone hsum hcut⟩

/-- Settles O28: the case of no run pending. -/
theorem longRunsAreCutAtTheCap : Obligations.LongRunsAreCutAtTheCap := by
  intro s m hinv hrun hstart hcap hzero hp _ hfits
  obtain ⟨t, ht, hopen, hend⟩ := exists_runsCut m hinv hrun hstart hcap hp hfits
  have hnone : s.enc.run.toNat = 0 := by simp [hzero]
  rw [hnone, Nat.zero_add] at hopen hend
  exact ⟨t, ht, hopen, hend⟩

end Sys2Proof.Machine
end

section
/-! PROOFS. Moves that step and moves that wait: the room on the output channels (R51, R240), the end of a decode pass (R240), the pixels of a run byte (R172, R176). -/

namespace Sys2Proof.Machine

/-! ### Room (R51, R240) -/

/-- Settles O31: with room a move completes the step or enters the error, without room it waits. -/
theorem unitsStepExactlyWhenThereIsRoom : Obligations.UnitsStepExactlyWhenThereIsRoom := by
  refine ⟨fun s c rest out hrun hstart hp hout => ⟨fun hroom => ?_, fun hroom => ?_⟩,
    fun s hrun hstart => ⟨fun hroom => ?_, fun hroom => ?_⟩⟩
  · exact ⟨_, encMove_pixel hstart hp hrun hout hroom, encPixelDone_encComplete hrun ..⟩
  · exact encMove_waits_no_room hstart hp hout hroom
  · obtain ⟨len, c, rem, hmove⟩ | ⟨code, hmove⟩ := decMove_enabled hstart hrun hroom
    · exact ⟨_, hmove, .inl rfl⟩
    · exact ⟨_, hmove, .inr (decErrorEntered_raiseFormatError s code)⟩
  · exact decMove_waits hstart (by simp [State.decEnabled, hroom])

theorem pixRoom_of_unbounded {s : State} (h : s.cfg.pixOutCap = none) : s.pixRoom = true := by
  simp [State.pixRoom, hasRoom, h]

/-! ### The end of a decode pass (R240) -/

/-- A unit that waits goes on waiting. -/
theorem moves_of_waits {move : State → Host.Outcome State Fault Refusal} {s : State}
    (h : move s = .next s) (n : Nat) : moves move n s = .next s := by
  induction n with
  | zero => rfl
  | succ n ih => rw [moves_succ n h, ih]

/-- Outside `RUNNING`, and with no `START` offered, `DEC` stays as it is. -/
theorem moves_decMove_of_not_running {s : State} (hstart : s.decPorts.start = none)
    (hrun : s.dec.state ≠ .running) (n : Nat) : moves decMove n s = .next s :=
  moves_of_waits (decMove_waits hstart (by simp [State.decEnabled, hrun])) n

/-- `DEC` leaves `RUNNING` in as many moves as pixels are left. -/
theorem decMove_pass_ends (n : Nat) {s : State} (hinv : s.Inv) (hrun : s.dec.state = .running)
    (hstart : s.decPorts.start = none) (hcap : s.cfg.pixOutCap = none)
    (hn : s.dec.npix - s.dec.pixIdx = n) :
    ∃ t, moves decMove n s = .next t ∧ (t.dec.state = .done ∨ t.dec.state = .error) := by
  have hlt := hinv.dec.runningUnfinished hrun
  induction n generalizing s with
  | zero => omega
  | succ n ih =>
    obtain ⟨len, c, rem, hmove⟩ | ⟨code, hmove⟩ :=
      decMove_enabled hstart hrun (pixRoom_of_unbounded hcap) <;> rw [moves_succ n hmove]
    · obtain ⟨hnext, hstate⟩ | ⟨-, hstate⟩ := stateAfterPixel_cases hlt <;> rw [← hrun] at hstate
      · exact ih (decMove_keeps_inv hinv hmove) (hstate.trans hrun) hstart hcap
          (by rw [completePixel_dec_npix, completePixel_dec_pixIdx]; omega) hnext
      · have hdone : (completePixel s len c rem).dec.state ≠ .running := by simp [hstate]
        exact ⟨_, moves_decMove_of_not_running (s := completePixel s len c rem) hstart hdone n, .inl hstate⟩
    · exact ⟨_, moves_decMove_of_not_running (s := raiseFormatError code s) hstart (by simp) n, .inr rfl⟩

/-- Settles O18: by induction on the pixels left. -/
theorem decoderPassEnds : Obligations.DecoderPassEnds := fun _ hinv hrun hstart hcap =>
  decMove_pass_ends _ hinv hrun hstart hcap rfl

/-! ### The pixels of a run byte (R172, R176) -/

/-- `t` is `s` after `n` repeats of `LAST`, with `len` bytes consumed and no run left. -/
structure RunServed (s t : State) (n len : Nat) : Prop where
  pixels : t.decPorts.pixOut = s.decPorts.pixOut ++ List.replicate n s.dec.last
  inPos : t.dec.inPos = s.dec.inPos + len
  rem : t.dec.rem = 0#6
  pixIdx : t.dec.pixIdx = s.dec.pixIdx + n
  last : t.dec.last = s.dec.last
  cache : t.dec.cache = s.dec.cache

/-- A completed pixel that repeats `LAST`, and then `n` more repeats. -/
theorem RunServed.of_next {s t : State} {len len' n : Nat} {rem : BitVec 6}
    (hcached : LastCached s.dec.cache s.dec.last)
    (h : RunServed (completePixel s len s.dec.last rem) t n len') : RunServed s t (n + 1) (len + len') where
  pixels := by rw [h.pixels]; simp [List.replicate_succ]
  inPos := by rw [h.inPos, completePixel_dec_inPos, Nat.add_assoc]
  rem := h.rem
  pixIdx := by rw [h.pixIdx, completePixel_dec_pixIdx]; omega
  last := h.last
  cache := h.cache.trans (cacheUpdate_of_cached hcached)

/-- A pixel step that repeats `LAST` does not move it out of its slot. -/
theorem lastCached_completePixel (s : State) (len : Nat) (c : Color) (rem : BitVec 6) :
    LastCached (completePixel s len c rem).dec.cache (completePixel s len c rem).dec.last :=
  lastCached_cacheUpdate _ c

/-- A pixel step that is not the last of its pass leaves the unit `RUNNING`. -/
theorem completePixel_running {s : State} (hrun : s.dec.state = .running)
    (hlt : s.dec.pixIdx + 1 < s.dec.npix) (len : Nat) (c : Color) (rem : BitVec 6) :
    (completePixel s len c rem).dec.state = .running :=
  (if_neg hlt.ne).trans hrun

/-- A pending run of `n` is served by `n` moves, which read no byte. -/
theorem exists_runServed (n : Nat) {s : State} (hrun : 0 < n → s.dec.state = .running)
    (hstart : s.decPorts.start = none) (hcap : s.cfg.pixOutCap = none) (hrem : s.dec.rem.toNat = n)
    (hfits : s.dec.pixIdx + n ≤ s.dec.npix) (hcached : LastCached s.dec.cache s.dec.last) :
    ∃ t, moves decMove n s = .next t ∧ RunServed s t n 0 := by
  induction n generalizing s with
  | zero =>
    have hzero : s.dec.rem = 0#6 := BitVec.eq_of_toNat_eq hrem
    exact ⟨s, rfl, by simp, rfl, hzero, rfl, rfl, rfl⟩
  | succ n ih =>
    have hrun := hrun (Nat.succ_pos n)
    have hmove := decMove_pending hstart hrun (pixRoom_of_unbounded hcap) (by rintro h; simp [h] at hrem)
    have hpred : (s.dec.rem - 1#6).toNat = n := by bv_omega
    obtain ⟨t, ht, hserved⟩ := ih (s := servePending s)
      (fun _ => completePixel_running hrun (by omega) ..) hstart hcap hpred
      (by rw [servePending, completePixel_dec_pixIdx, completePixel_dec_npix]; omega)
      (lastCached_completePixel ..)
    exact ⟨t, (moves_succ n hmove).trans ht, hserved.of_next hcached⟩

/-- Settles O11: the move that reads the run byte repeats `LAST`, and the moves after it serve what it owes. -/
theorem runByteAccountsForItsCount : Obligations.RunByteAccountsForItsCount := by
  intro s n rest hready hstart hcap hpos hn hfits hcached hunread
  obtain ⟨m, rfl⟩ := Nat.exists_eq_add_one.mpr hpos
  have hdecode : decode s.unread = .ok (.run (m + 1), rest) := hunread ▸ decode_run_ofNat hn rest
  have hmove : decMove s = .next (completePixel s 1 s.dec.last (runRemainder (m + 1))) :=
    (decMove_reads hstart hready hdecode).trans (exec_ready (decide_eq_true hn) hready)
  have hrem : (runRemainder (m + 1)).toNat = m := toNat_runRemainder (by omega)
  obtain ⟨t, ht, hserved⟩ := exists_runServed m
    (s := completePixel s 1 s.dec.last (runRemainder (m + 1)))
    (fun _ => completePixel_running hready.running (by omega) ..) hstart hcap hrem
    (by rw [completePixel_dec_pixIdx, completePixel_dec_npix]; omega) (lastCached_completePixel ..)
  obtain ⟨hpixels, hinPos, hrem, hpixIdx, hlast, hcache⟩ := hserved.of_next hcached
  exact ⟨t, (moves_succ m hmove).trans ht, hpixels, hinPos, hrem, hpixIdx, hlast, hcache⟩

end Sys2Proof.Machine
end

section
/-! SUPPORT. An encode pass in progress (R141, R150): its steps, the bytes it still emits, and the run byte that a pending run becomes. -/

namespace Sys2Proof.Machine

/-! ### An encode pass in progress -/

/-- The first of several moves. -/
theorem moves_succ_next {move : State → Host.Outcome State Fault Refusal} {n : Nat} {s t : State}
    (h : moves move (n + 1) s = .next t) : ∃ u, move s = .next u ∧ moves move n u = .next t := by
  unfold moves at h
  split at h
  · exact ⟨_, ‹_›, h⟩
  · cases h
  · cases h

/-- `ENC` is in a pass with just the pixels `ps` still to come, on a channel that never makes it wait. -/
structure EncPass (s : State) (ps : List Color) : Prop where
  cfgOk : s.cfg.wf = true
  inv : s.enc.Inv s.cfg
  start : s.encPorts.start = none
  unbounded : s.cfg.byteOutCap = none
  pixIn : s.encPorts.pixIn = ps
  count : s.enc.pixIdx + ps.length = s.enc.npix
  state : s.enc.state = startState ps.length
  outLen : s.enc.outLen = s.encPorts.byteOut.length

/-- From the pass in `s` with `ps` to come, `ENC` ends in `t`, after emitting the bytes `future`. -/
def EncEndsIn (s : State) (ps : List Color) (t : State) (future : List Byte) : Prop :=
  moves encMove ps.length s = .next t ∧ t.encPorts.byteOut = s.encPorts.byteOut ++ future

/-- Whatever `DEC` is doing, what an `ENC_PIXEL` step emits encodes (R20, R152). -/
theorem EncUnit.Inv.encodes {s : State} (hinv : s.enc.Inv s.cfg) (hcfg : s.cfg.wf = true) (c : Color) :
    ∃ out, encodeAll (encOps s.cfg s.enc c).1 = some out := by
  have hblock : ({ State.reset with cfg := s.cfg, enc := s.enc } : State).Inv :=
    ⟨hcfg, hinv, decUnit_reset_inv _ _, by simp [State.reset], by simp [State.reset]⟩
  obtain ⟨out, hout, -⟩ := encOps_encodes hblock c
  exact ⟨out, hout⟩

/-- A pass with a pixel to come takes it, and the rest of the pass remains. -/
theorem EncPass.step {s : State} {c : Color} {ps : List Color} (h : EncPass s (c :: ps)) :
    ∃ out, encodeAll (encOps s.cfg s.enc c).1 = some out ∧
      encMove s = .next (encComplete s c ps out (encOps s.cfg s.enc c).2) ∧
      EncPass (encComplete s c ps out (encOps s.cfg s.enc c).2) ps := by
  obtain ⟨hcfg, hinv, hstart, hcap, hpixIn, hcount, hstate, hlen⟩ := h
  rw [List.length_cons] at hcount hstate
  have hrun : s.enc.state = .running := hstate.trans (if_neg (Nat.succ_ne_zero _))
  obtain ⟨out, hout⟩ := hinv.encodes hcfg c
  refine ⟨out, hout, encMove_pixel hstart hpixIn hrun hout (byteRoom_of_unbounded hcap _),
    hcfg, encComplete_enc_inv ps hcfg hinv hrun hout, hstart, hcap, rfl, ?_, ?_, ?_⟩
  · rw [encComplete_enc_pixIdx, encComplete_enc_npix]
    omega
  · have hends : s.enc.pixIdx + 1 = s.enc.npix ↔ ps.length = 0 := by omega
    simp only [encComplete_enc_state, stateAfterPixel, startState, hends, hrun]
  · rw [encComplete_enc_outLen, encComplete_encPorts_byteOut, List.length_append, hlen]

/-- The encode pass ends. -/
theorem EncPass.ends {s : State} {ps : List Color} (h : EncPass s ps) :
    ∃ t future, EncEndsIn s ps t future := by
  induction ps generalizing s with
  | nil => exact ⟨s, [], rfl, (List.append_nil _).symm⟩
  | cons c ps ih =>
    obtain ⟨out, -, hmove, hpass⟩ := h.step
    obtain ⟨t, future, hmoves, hbytes⟩ := ih hpass
    exact ⟨t, out ++ future, (moves_succ _ hmove).trans hmoves, by
      rw [hbytes, encComplete_encPorts_byteOut, List.append_assoc]⟩

/-- The bytes of a pass are those of its next step and those of the rest of the pass. -/
theorem EncEndsIn.step {s u t : State} {c : Color} {ps : List Color} {out future : List Byte}
    (h : EncEndsIn s (c :: ps) t future) (hmove : encMove s = .next u)
    (hbytes : u.encPorts.byteOut = s.encPorts.byteOut ++ out) (hpass : EncPass u ps) :
    ∃ future', future = out ++ future' ∧ EncEndsIn u ps t future' := by
  obtain ⟨hmoves, hfuture⟩ := h
  have hmoves' : moves encMove ps.length u = .next t := (moves_succ _ hmove).symm.trans hmoves
  obtain ⟨t', future', hends, hfuture'⟩ := hpass.ends
  cases hends.symm.trans hmoves'
  rw [hfuture', hbytes, List.append_assoc] at hfuture
  exact ⟨future', (List.append_cancel_left hfuture).symm, hends, hfuture'⟩

/-! ### The run byte that a pending run becomes -/

/-- The run byte of `n` (R124). -/
def runByte (n : Nat) : Byte := BitVec.ofNat 8 (0xC0 + n)

theorem encode_run_eq_runByte {n : Nat} (h : n ≤ 61) : encode (.run n) = some [runByte n] := encode_run h

theorem flushBytes_eq_runByte {n : Nat} (h : n ≠ 0) : flushBytes n = [runByte n] := flushBytes_pos h

theorem runByte_inj {m n : Nat} (hm : m ≤ 61) (hn : n ≤ 61) (h : runByte m = runByte n) : m = n := by
  have hm : decode [runByte m] = .ok (.run m, []) := decode_run_ofNat hm []
  have hn : decode [runByte n] = .ok (.run n, []) := decode_run_ofNat hn []
  rw [h, hn] at hm
  cases hm
  rfl

/-- The first byte still to come stands for `n` pixels of a run, after which `rest` comes. -/
def RunAhead (future : List Byte) (n : Nat) (rest : List Byte) : Prop :=
  future = runByte n :: rest ∧ n ≤ 61

/-- A run that is pending in the encoder comes out in a run byte, maybe after it has grown (R143, R144). -/
theorem EncPass.runAhead {s t : State} {ps : List Color} {future : List Byte} (hpass : EncPass s ps)
    (hends : EncEndsIn s ps t future) (hrun : s.enc.run ≠ 0#6) :
    ∃ n rest, RunAhead future n rest ∧ s.enc.run.toNat ≤ n := by
  induction ps generalizing s future with
  | nil =>
    have hdone : s.enc.state ≠ .running := by simp [hpass.state, startState]
    exact absurd (hpass.inv.noRunOutsidePass hdone) hrun
  | cons c ps ih =>
    have hmax := ((Config.wf_iff s.cfg).mp hpass.cfgOk).2
    obtain ⟨out, hout, hmove, hpass'⟩ := hpass.step
    obtain ⟨future, rfl, hends'⟩ := hends.step hmove rfl hpass'
    obtain ⟨-, hcap, -, rfl, hrun'⟩ | ⟨-, hcap, -, rfl, -⟩ | ⟨-, -, bytes, -, rfl⟩ := encOps_emits hout
    · have hsucc := toNat_run_succ hpass.cfgOk hcap
      obtain ⟨n, rest, hahead, hle⟩ := ih hpass' hends' (by
        rw [encComplete_enc_run, hrun']
        intro hzero
        simp [hzero] at hsucc)
      rw [encComplete_enc_run, hrun', hsucc] at hle
      exact ⟨n, rest, hahead, Nat.le_of_succ_le hle⟩
    · rw [toNat_run_succ hpass.cfgOk hcap, flushBytes_eq_runByte (Nat.succ_ne_zero _)]
      exact ⟨_, future, ⟨rfl, by omega⟩, Nat.le_succ _⟩
    · have hpos : s.enc.run.toNat ≠ 0 := by bv_omega
      rw [flushBytes_eq_runByte hpos]
      exact ⟨_, bytes ++ future, ⟨by simp, hpass.inv.runInRange.trans hmax⟩, Nat.le_refl _⟩

end Sys2Proof.Machine
end

section
/-! SUPPORT. A decoder that follows the encoder (R112, R183): what one move of it delivers, that the operation chosen gives back the pixel, and that the decoder stays in step over the pixels of a pass. -/

namespace Sys2Proof.Machine

/-! ### A pixel that `DEC` delivers -/

/-- The next move of `DEC` delivers `c`, leaves `rem` in `REM`, and leaves the bytes `rest` unread. -/
def Delivers (d : State) (c : Color) (rem : BitVec 6) (rest : List Byte) : Prop :=
  ∃ len, decMove d = .next (completePixel d len c rem) ∧ (completePixel d len c rem).unread = rest ∧
    d.dec.inPos + len ≤ d.decPorts.byteIn.length

/-- A pixel step leaves unread what it did not consume (R52). -/
theorem unread_completePixel (s : State) (len : Nat) (c : Color) (rem : BitVec 6) :
    (completePixel s len c rem).unread = s.unread.drop len := by
  simp [State.unread]

/-- An operation other than the reserved byte, when its bytes come next, completes its pixel. -/
theorem delivers_of_encode {d : State} {i : Instr} {own rest : List Byte} (hready : DecReady d)
    (hstart : d.decPorts.start = none) (hpos : d.dec.inPos ≤ d.decPorts.byteIn.length)
    (hi : i ≠ .rsvFF) (hencode : encode i = some own) (hunread : d.unread = own ++ rest) :
    Delivers d (opEffect i d).1 (opEffect i d).2.2 rest := by
  have hwf := wf_of_encode hencode
  obtain ⟨own', hencode', hdecode⟩ := decode_encode hwf
  obtain rfl : own = own' := Option.some.inj (hencode.symm.trans hencode')
  have hread : decode d.unread = .ok (i, rest) := hunread ▸ hdecode rest
  have hlen := opEffect_length_le hread
  have hown : (opEffect i d).2.1 = own.length := (opEffect_length i d).trans (encode_length hencode).symm
  refine ⟨(opEffect i d).2.1, ?_, ?_, by omega⟩
  · rw [decMove_reads hstart hready hread, exec_ready hwf hready, opAfter, if_neg (fun h => hi h.1)]
  · rw [unread_completePixel, hunread, hown, List.drop_left]

/-- A pending run delivers `LAST` and reads nothing (R172). -/
theorem delivers_of_pending {d : State} (hrun : d.dec.state = .running) (hroom : d.pixRoom = true)
    (hstart : d.decPorts.start = none) (hpos : d.dec.inPos ≤ d.decPorts.byteIn.length)
    (hrem : d.dec.rem ≠ 0#6) : Delivers d d.dec.last (d.dec.rem - 1#6) d.unread :=
  ⟨0, decMove_pending hstart hrun hroom hrem, rfl, hpos⟩

/-! ### The operation that is chosen gives back the pixel (R145 to R148 against R174 to R178) -/

/-- Adding a signed channel difference modulo 256 gives the channel back. -/
theorem u8_of_isDelta {c p : Byte} {d v : Int} (h : IsDelta c p d) (hv : v = chan p + d) : u8 v = c := by
  have hu := toNat_u8 v
  have hc := c.isLt
  simp only [IsDelta, chan] at h hv
  apply BitVec.eq_of_toNat_eq
  omega

/-- With the encoder's cache and `LAST`, the decoder computes from the chosen operation exactly the pixel, and
loads no run. -/
theorem opEffect_encChoose {e : EncUnit} {d : State} (hcache : d.dec.cache = e.cache)
    (hlast : d.dec.last = e.last) (c : Color) :
    (opEffect (encChoose e c) d).1 = c ∧ (opEffect (encChoose e c) d).2.2 = d.dec.rem := by
  obtain ⟨hhit, h⟩ | ⟨dr, dg, db, hd, h⟩ | ⟨dr, dg, db, hl, h⟩ | h := encChoose_cases e c <;> rw [h]
  · have hslot : cacheSlot e.cache (hash c) = packColor c := not_not.mp hhit
    exact ⟨by simp [opEffect, readColor, hcache, hslot], rfl⟩
  · obtain ⟨hr, hg, hb, -⟩ := hd
    rw [← hlast] at hr hg hb
    refine ⟨?_, rfl⟩
    simp only [opEffect, diffColor, u8_of_isDelta hr rfl, u8_of_isDelta hg rfl, u8_of_isDelta hb rfl]
  · obtain ⟨hr, hg, hb, -⟩ := hl
    rw [← hlast] at hr hg hb
    refine ⟨?_, rfl⟩
    simp only [opEffect, lumaColor, u8_of_isDelta hg rfl,
      u8_of_isDelta hr (show chan d.dec.last.r + (dr - dg) + dg = _ by ring),
      u8_of_isDelta hb (show chan d.dec.last.b + (db - dg) + dg = _ by ring)]
  · exact ⟨rfl, rfl⟩

theorem encChoose_ne_rsvFF (e : EncUnit) (c : Color) : encChoose e c ≠ .rsvFF := by
  intro h
  simpa [h, Instr.kind] using encChoose_kind e c

/-! ### A decoder that follows the encoder -/

/-- How the bytes `future` that the encoder will still emit stand to those the decoder has not read: with a run
pending in the encoder, the decoder has already read the run byte it will become, and owes the rest of it. -/
def Owed (run rem : BitVec 6) (unread future : List Byte) : Prop :=
  (run = 0#6 ∧ rem = 0#6 ∧ future = unread) ∨
  (run ≠ 0#6 ∧ RunAhead future (run.toNat + rem.toNat) unread)

/-- `d` has decoded exactly the pixels that `e` has encoded, from the stream that `e` completes with `future`. -/
structure InStep (e d : State) (future : List Byte) : Prop where
  start : d.decPorts.start = none
  unbounded : d.cfg.pixOutCap = none
  npix : d.dec.npix = e.enc.npix
  pixIdx : d.dec.pixIdx = e.enc.pixIdx
  state : d.dec.state = e.enc.state
  errCode : d.dec.errCode = .none
  cache : d.dec.cache = e.enc.cache
  last : d.dec.last = e.enc.last
  inPos : d.dec.inPos ≤ d.decPorts.byteIn.length
  owed : Owed e.enc.run d.dec.rem d.unread future

/-- If `DEC` delivers the pixel that `ENC` takes, it stays in step. -/
theorem InStep.advance {e d : State} {c : Color} {ps : List Color} {out future future' rest : List Byte}
    {run rem : BitVec 6} (h : InStep e d future) (hdelivers : Delivers d c rem rest)
    (howed : Owed run rem rest future') :
    ∃ d', decMove d = .next d' ∧ InStep (encComplete e c ps out run) d' future' ∧
      d'.decPorts = { d.decPorts with pixOut := d.decPorts.pixOut ++ [c] } := by
  obtain ⟨hstart, hcap, hnpix, hpixIdx, hstate, herr, hcache, -, -, -⟩ := h
  obtain ⟨len, hmove, hrest, hpos⟩ := hdelivers
  exact ⟨_, hmove, {
    start := hstart
    unbounded := hcap
    npix := hnpix
    pixIdx := congrArg (· + 1) hpixIdx
    state := by rw [completePixel_dec_state, encComplete_enc_state, hnpix, hpixIdx, hstate]
    errCode := herr
    cache := congrArg (cacheUpdate · c) hcache
    last := rfl
    inPos := hpos
    owed := hrest.symm ▸ howed }, rfl⟩

/-- A repeat of `LAST` that lies in a run of `n` to come: the decoder reads the run byte or has read it. -/
theorem InStep.delivers_repeat {e d : State} {n : Nat} {future rest : List Byte} (h : InStep e d future)
    (hrunning : e.enc.state = .running) (hahead : RunAhead future n rest) (hn : e.enc.run.toNat + 1 ≤ n) :
    ∃ rem : BitVec 6, rem.toNat = n - (e.enc.run.toNat + 1) ∧ Delivers d e.enc.last rem rest := by
  have hrun := h.state.trans hrunning
  have hroom := pixRoom_of_unbounded h.unbounded
  obtain ⟨hfuture, hmax⟩ := hahead
  rw [← h.last]
  obtain ⟨hzero, hrem, hunread⟩ | ⟨-, hahead, hmax'⟩ := h.owed
  · have hdelivers := delivers_of_encode ⟨hrun, hrem, hroom⟩ h.start h.inPos (i := .run n) (by simp)
      (encode_run_eq_runByte hmax) (hunread.symm.trans hfuture)
    refine ⟨_, ?_, hdelivers⟩
    rw [opEffect, toNat_runRemainder (by omega), if_neg (by omega), hzero]
    rfl
  · obtain ⟨hbyte, rfl⟩ := List.cons.inj (hfuture.symm.trans hahead)
    have hsum := runByte_inj hmax hmax' hbyte
    exact ⟨_, by bv_omega, delivers_of_pending hrun hroom h.start h.inPos (by bv_omega)⟩

/-- A pixel that is not absorbed: the flush of the run is read already, and the operation chosen gives the pixel. -/
theorem InStep.delivers_operation {e d : State} {c : Color} {bytes future : List Byte}
    (h : InStep e d (flushBytes e.enc.run.toNat ++ bytes ++ future)) (hrunning : e.enc.state = .running)
    (hrun : e.enc.run.toNat ≤ 61) (hencode : encode (encChoose e.enc c) = some bytes) :
    Delivers d c 0#6 future := by
  obtain ⟨hrem, hunread⟩ : d.dec.rem = 0#6 ∧ d.unread = bytes ++ future := by
    obtain ⟨hzero, hrem, hunread⟩ | ⟨hne, hahead, hmax⟩ := h.owed
    · exact ⟨hrem, by rw [← hunread, hzero]; rfl⟩
    · have hpos : e.enc.run.toNat ≠ 0 := by bv_omega
      rw [flushBytes_eq_runByte hpos] at hahead
      obtain ⟨hbyte, hunread⟩ := List.cons.inj hahead
      have hsum := runByte_inj hrun hmax hbyte
      exact ⟨by bv_omega, hunread.symm⟩
  have hready : DecReady d := ⟨h.state.trans hrunning, hrem, pixRoom_of_unbounded h.unbounded⟩
  have hdelivers := delivers_of_encode hready h.start h.inPos (encChoose_ne_rsvFF _ _) hencode hunread
  obtain ⟨hcolor, hremAfter⟩ := opEffect_encChoose h.cache h.last c
  rwa [hcolor, hremAfter, hrem] at hdelivers

/-- Over a pixel step of each unit the decoder stays in step, case by case of what the encoder emits. -/
theorem InStep.step {e t d : State} {c : Color} {ps : List Color} {future : List Byte}
    (h : InStep e d future) (hpass : EncPass e (c :: ps)) (hends : EncEndsIn e (c :: ps) t future) :
    ∃ e' d' future', encMove e = .next e' ∧ decMove d = .next d' ∧ EncPass e' ps ∧
      EncEndsIn e' ps t future' ∧ InStep e' d' future' ∧ e'.enc.pixIdx = e.enc.pixIdx + 1 ∧
      d'.decPorts = { d.decPorts with pixOut := d.decPorts.pixOut ++ [c] } := by
  obtain ⟨out, hout, hmove, hpass'⟩ := hpass.step
  obtain ⟨future', rfl, hends'⟩ := hends.step hmove rfl hpass'
  have hrunning : e.enc.state = .running := hpass.state.trans (if_neg (Nat.succ_ne_zero _))
  have hmax := ((Config.wf_iff e.cfg).mp hpass.cfgOk).2
  suffices hnext : ∃ rem rest, Delivers d c rem rest ∧ Owed (encOps e.cfg e.enc c).2 rem rest future' by
    obtain ⟨rem, rest, hdelivers, howed⟩ := hnext
    obtain ⟨d', hmove', hstep, hports⟩ := h.advance (ps := ps) (out := out) hdelivers howed
    exact ⟨_, d', future', hmove, hmove', hpass', hends', hstep, rfl, hports⟩
  obtain ⟨rfl, hcap, -, rfl, hrun⟩ | ⟨rfl, hcap, -, rfl, hrun⟩ | ⟨-, hrun, bytes, hencode, rfl⟩ :=
    encOps_emits hout
  · have hsucc := toNat_run_succ hpass.cfgOk hcap
    have hne : e.enc.run + 1#6 ≠ 0#6 := fun hzero => by simp [hzero] at hsucc
    obtain ⟨n, rest, hahead, hn⟩ := hpass'.runAhead hends' (by rwa [encComplete_enc_run, hrun])
    rw [encComplete_enc_run, hrun, hsucc] at hn
    obtain ⟨rem, hrem, hdelivers⟩ := h.delivers_repeat hrunning hahead hn
    refine ⟨rem, rest, hdelivers, hrun.symm ▸ .inr ⟨hne, ?_⟩⟩
    rwa [hsucc, hrem, Nat.add_sub_cancel' hn]
  · have hsucc := toNat_run_succ hpass.cfgOk hcap
    rw [hsucc, flushBytes_eq_runByte (Nat.succ_ne_zero _)] at h
    obtain ⟨rem, hrem, hdelivers⟩ := h.delivers_repeat hrunning ⟨rfl, hcap.trans_le hmax⟩ (Nat.le_refl _)
    refine ⟨rem, future', hdelivers, hrun.symm ▸ .inl ⟨rfl, BitVec.eq_of_toNat_eq ?_, rfl⟩⟩
    rw [hrem, Nat.sub_self]
    rfl
  · exact ⟨_, future', h.delivers_operation hrunning (hpass.inv.runInRange.trans hmax) hencode,
      hrun.symm ▸ .inl ⟨rfl, rfl, rfl⟩⟩

/-- Over `j` pixel steps of each unit the decoder stays in step. -/
theorem InStep.steps (j : Nat) {e t d : State} {ps : List Color} {future : List Byte}
    (h : InStep e d future) (hpass : EncPass e ps) (hends : EncEndsIn e ps t future)
    (hj : j ≤ ps.length) :
    ∃ e' d' future', moves encMove j e = .next e' ∧ moves decMove j d = .next d' ∧
      EncPass e' (ps.drop j) ∧ EncEndsIn e' (ps.drop j) t future' ∧ InStep e' d' future' ∧
      e'.enc.pixIdx = e.enc.pixIdx + j ∧
      d'.decPorts = { d.decPorts with pixOut := d.decPorts.pixOut ++ ps.take j } := by
  induction j generalizing e d ps future with
  | zero => exact ⟨e, d, future, rfl, rfl, hpass, hends, h, rfl, by simp⟩
  | succ j ih =>
    obtain _ | ⟨c, ps⟩ := ps
    · simp at hj
    obtain ⟨e₁, d₁, future₁, hmove, hmove', hpass₁, hends₁, hstep₁, hidx₁, hports₁⟩ := h.step hpass hends
    obtain ⟨e', d', future', hmoves, hmoves', hpass', hends', hstep', hidx', hports'⟩ :=
      ih hstep₁ hpass₁ hends₁ (Nat.le_of_succ_le_succ hj)
    exact ⟨e', d', future', (moves_succ j hmove).trans hmoves, (moves_succ j hmove').trans hmoves', hpass',
      hends', hstep', by omega, by simp [hports', hports₁]⟩

end Sys2Proof.Machine
end

section
/-! PROOFS. The round trip of whole passes (R183) and the units in step (R112). -/

namespace Sys2Proof.Machine

/-- `s` with an encode pass over `pixels` offered and `byte_out` empty. -/
def offerEncode (s : State) (pixels : List Color) : State :=
  { s with encPorts := { start := some pixels.length, pixIn := pixels, byteOut := [] } }

/-- `s` with a decode pass of `npix` pixels over `input` offered and `pix_out` empty. -/
def offerDecode (s : State) (npix : Nat) (input : List Byte) : State :=
  { s with decPorts :=
    { start := some { npix := npix, input := input }, byteIn := s.decPorts.byteIn, pixOut := [] } }

section
variable {s : State} {pixels : List Color} (hcfg : s.cfg.wf = true) (hbyteCap : s.cfg.byteOutCap = none)
  (hpixCap : s.cfg.pixOutCap = none) (hfits : countFits s.cfg pixels.length = true)
include hcfg hbyteCap hfits

/-- After the `START` the encode pass has all its pixels to come. -/
theorem encPass_of_offerEncode :
    EncPass (encStart pixels.length (offerEncode s pixels)) pixels where
  cfgOk := hcfg
  inv := encStart_enc_inv (s := offerEncode s pixels) (of_decide_eq_true hfits)
  start := rfl
  unbounded := hbyteCap
  pixIn := rfl
  count := Nat.zero_add _
  state := rfl
  outLen := rfl

include hpixCap

/-- The passes of the round trip, `j` pixels into each: `DEC` follows `ENC`, which will end in `t`. -/
theorem roundTrip_steps {t : State} {j : Nat} (hj : j ≤ pixels.length)
    (hends : moves encMove (pixels.length + 1) (offerEncode s pixels) = .next t) :
    ∃ e d future, moves encMove (j + 1) (offerEncode s pixels) = .next e ∧
      moves decMove (j + 1) (offerDecode s pixels.length t.encPorts.byteOut) = .next d ∧
      EncPass e (pixels.drop j) ∧ EncEndsIn e (pixels.drop j) t future ∧ InStep e d future ∧ e.enc.pixIdx = j ∧
      d.decPorts = { start := none, byteIn := t.encPorts.byteOut, pixOut := pixels.take j } := by
  have hstart := encMove_start (s := offerEncode s pixels) rfl hfits
  have hstart' := decMove_start (s := offerDecode s pixels.length t.encPorts.byteOut) rfl hfits
  have hends₀ : EncEndsIn (encStart pixels.length (offerEncode s pixels)) pixels t t.encPorts.byteOut :=
    ⟨(moves_succ _ hstart).symm.trans hends, rfl⟩
  have hstep₀ : InStep (encStart pixels.length (offerEncode s pixels))
      (decStart ⟨pixels.length, t.encPorts.byteOut⟩ (offerDecode s pixels.length t.encPorts.byteOut))
      t.encPorts.byteOut :=
    ⟨rfl, hpixCap, rfl, rfl, rfl, rfl, rfl, rfl, Nat.zero_le _, .inl ⟨rfl, rfl, rfl⟩⟩
  obtain ⟨e, d, future, hmoves, hmoves', hpass, hends', hstep, hidx, hports⟩ :=
    hstep₀.steps j (encPass_of_offerEncode hcfg hbyteCap hfits) hends₀ hj
  exact ⟨e, d, future, (moves_succ j hstart).trans hmoves, (moves_succ j hstart').trans hmoves', hpass,
    hends', hstep, hidx.trans (Nat.zero_add j), hports⟩

end

/-- Settles O59: `j` pixels into both passes `DEC` is in step with `ENC`. -/
theorem unitsStayInStep : Obligations.UnitsStayInStep := by
  intro s t pixels j hcfg hbyteCap hpixCap hfits hj hends
  obtain ⟨e, d, future, hmoves, hmoves', -, -, hstep, hidx, hports⟩ :=
    roundTrip_steps hcfg hbyteCap hpixCap hfits hj hends
  exact ⟨e, d, hmoves, hmoves', hidx, hstep.pixIdx.trans hidx, by rw [hports], hstep.cache, hstep.last⟩

/-- A decoder in step with an encoder that has finished its pass has read every byte and owes no pixel. -/
theorem InStep.finished {e d : State} (h : InStep e d []) (hrun : e.enc.run = 0#6) :
    d.dec.rem = 0#6 ∧ d.dec.inPos = d.decPorts.byteIn.length := by
  obtain ⟨-, hrem, hunread⟩ | ⟨hne, -⟩ := h.owed
  · exact ⟨hrem, Nat.le_antisymm h.inPos (List.drop_eq_nil_iff.mp hunread.symm)⟩
  · exact absurd hrun hne

/-- Settles O58: all pixels into both passes, `ENC` has emitted everything and `DEC` is in step with it. -/
theorem decodeInvertsEncodePass : Obligations.DecodeInvertsEncodePass := by
  intro s pixels hcfg hbyteCap hpixCap hfits
  obtain ⟨t, _, hmoves, -⟩ := (encPass_of_offerEncode hcfg hbyteCap hfits).ends
  have hends : moves encMove (pixels.length + 1) (offerEncode s pixels) = .next t :=
    (moves_succ _ (encMove_start (s := offerEncode s pixels) rfl hfits)).trans hmoves
  obtain ⟨e, d, future, -, hdecode, hpass, ⟨hzero, hfuture⟩, hstep, -, hports⟩ :=
    roundTrip_steps hcfg hbyteCap hpixCap hfits (Nat.le_refl _) hends
  rw [List.drop_length] at hpass hzero
  cases hzero
  obtain rfl : future = [] := List.self_eq_append_right.mp hfuture
  have hdone : t.enc.state = .done := hpass.state
  have hrun : t.enc.run = 0#6 := hpass.inv.noRunOutsidePass (by simp [hdone])
  obtain ⟨hrem, hpos⟩ := hstep.finished hrun
  rw [hports] at hpos
  exact ⟨t, d, hends, hdone, hpass.pixIn, hpass.outLen, hdecode, by rw [hports, List.take_length],
    hstep.state.trans hdone, hstep.errCode, hpos, hrem, hstep.cache, hstep.last⟩

end Sys2Proof.Machine
end
